-- ==== Sys2Proof/Word.lean ====
section
/-!
DEFINITION. The words of the LS-8 core: a byte (a register, a memory cell, an operand, an immediate;
spec 00_scope.md R7), the program counter (10_state.md R25), and a register index. A memory address is a
plain Nat: addresses are "unbounded non-negative integers", compared with 255 and never reduced mod 256 (20_memory.md R51).
-/

namespace Sys2Proof

/-- An unsigned 8-bit value: register, memory cell, operand byte, immediate, return address (R7, R23, R50). -/
abbrev Byte := BitVec 8

/-- The program counter: 9 bits, never wrapping (10_state.md R25, `PC_BITS` of 00_scope.md R5). -/
abbrev PC := BitVec 9

/-- The index of one of the eight registers (10_state.md R21, `NREGS` of 00_scope.md R5). -/
abbrev RegIndex := Fin 8

end Sys2Proof
end

