-- ==== Sys2Proof/Syntax.lean ====
section
/-!
DEFINITION. The instructions as syntax: the thirteen rows of the opcode table (30_encoding.md R72), their formats
(R71) and their operand bytes. An operand byte is kept as it stands in memory: a register operand of 8 to 255 is a
well-decoded instruction that faults in the validation phase (R76, 40_fetch_decode_execute.md R95); see WellFormed.lean.
-/

namespace Sys2Proof

/-- The four formats of R71. -/
inductive Format where
  /-- 1 byte: the opcode. -/
  | z
  /-- 2 bytes: opcode, register `a`. -/
  | r
  /-- 3 bytes: opcode, register `a`, register `b`. -/
  | rr
  /-- 3 bytes: opcode, register `a`, immediate. -/
  | ri
deriving DecidableEq, Repr

/-- Operand bytes that follow the opcode byte (R70, R71). -/
def Format.operandCount : Format → Nat
  | .z => 0
  | .r => 1
  | .rr => 2
  | .ri => 2

/-- The thirteen operations, in the order of the opcode table (R72). -/
inductive Opcode where
  | hlt | ldi | prn | mul | add | pop | cmp | jmp | jeq | jne | push | call | ret
deriving DecidableEq, Repr

/-- The format column of R72. -/
def Opcode.format : Opcode → Format
  | .hlt => .z
  | .ldi => .ri
  | .prn => .r
  | .mul => .rr
  | .add => .rr
  | .pop => .r
  | .cmp => .rr
  | .jmp => .r
  | .jeq => .r
  | .jne => .r
  | .push => .r
  | .call => .r
  | .ret => .z

/-- The length column of R72: one opcode byte and the operand bytes. -/
def Opcode.length (o : Opcode) : Nat := 1 + o.format.operandCount

/-- One constructor per row of the opcode table. `a` is the byte at `pc + 1`, `b` or `imm` the byte at `pc + 2`. -/
inductive Instr where
  /-- HLT (R110). -/
  | hlt
  /-- LDI a, imm (R111). -/
  | ldi (a imm : Byte)
  /-- PRN a (R112). -/
  | prn (a : Byte)
  /-- MUL a, b (R121). -/
  | mul (a b : Byte)
  /-- ADD a, b (R122). -/
  | add (a b : Byte)
  /-- POP a (R143). -/
  | pop (a : Byte)
  /-- CMP a, b (R123). -/
  | cmp (a b : Byte)
  /-- JMP a (R152). -/
  | jmp (a : Byte)
  /-- JEQ a (R153). -/
  | jeq (a : Byte)
  /-- JNE a (R154). -/
  | jne (a : Byte)
  /-- PUSH a (R142). -/
  | push (a : Byte)
  /-- CALL a (R150). -/
  | call (a : Byte)
  /-- RET (R151). -/
  | ret
deriving DecidableEq, Repr

/-- The row of the opcode table an instruction belongs to. -/
def Instr.opcode : Instr → Opcode
  | .hlt => .hlt
  | .ldi _ _ => .ldi
  | .prn _ => .prn
  | .mul _ _ => .mul
  | .add _ _ => .add
  | .pop _ => .pop
  | .cmp _ _ => .cmp
  | .jmp _ => .jmp
  | .jeq _ => .jeq
  | .jne _ => .jne
  | .push _ => .push
  | .call _ => .call
  | .ret => .ret

/-- An instruction's length in bytes (R70, R72). -/
def Instr.length (i : Instr) : Nat := i.opcode.length

end Sys2Proof
end

