-- ==== Sys2Proof/WellFormed.lean ====
section
/-!
DEFINITION. Which instructions have only legal field values. "Within a recognized instruction the only illegal field
values are register indices 8 to 255" (30_encoding.md R78, R76); every immediate is legal (R77).
-/

namespace Sys2Proof

/-- The register-index operand bytes of an instruction, in the order they are validated: `a`, then `b`
(40_fetch_decode_execute.md R95). An immediate is no register operand. -/
def Instr.regOperands : Instr → List Byte
  | .hlt => []
  | .ldi a _ => [a]
  | .prn a => [a]
  | .mul a b => [a, b]
  | .add a b => [a, b]
  | .pop a => [a]
  | .cmp a b => [a, b]
  | .jmp a => [a]
  | .jeq a => [a]
  | .jne a => [a]
  | .push a => [a]
  | .call a => [a]
  | .ret => []

/-- Every register operand names one of `x[0]` to `x[7]` (R76). -/
def Instr.wellFormed (i : Instr) : Bool := i.regOperands.all fun b => decide (b.toNat < 8)

end Sys2Proof
end

