-- ==== Sys2Proof/Decode.lean ====
section
/-!
DEFINITION. The opcode map (30_encoding.md R72), the decoder (a whole-byte match of the opcode byte, R75; total on
any bytes, rejecting by name), and the encoder written from the same map.
-/

namespace Sys2Proof

/-- The opcode byte of each row, bit 7 first: "bit-exact, must be preserved" (R72). -/
def Opcode.byte : Opcode → Byte
  | .hlt => 0b00000001#8
  | .ldi => 0b10000010#8
  | .prn => 0b01000111#8
  | .mul => 0b10100010#8
  | .add => 0b10100000#8
  | .pop => 0b01000110#8
  | .cmp => 0b10100111#8
  | .jmp => 0b01010100#8
  | .jeq => 0b01010101#8
  | .jne => 0b01010110#8
  | .push => 0b01000101#8
  | .call => 0b01010000#8
  | .ret => 0b00010001#8

/-- The rows of the opcode table, in its order (R72). -/
def Opcode.all : List Opcode :=
  [.hlt, .ldi, .prn, .mul, .add, .pop, .cmp, .jmp, .jeq, .jne, .push, .call, .ret]

/-- The whole-byte match of R75: the row a byte selects, or none for the 243 unrecognized bytes (R78). -/
def Opcode.ofByte (b : Byte) : Option Opcode := Opcode.all.find? fun o => o.byte == b

/-- The instruction a row makes of the operand bytes at `pc + 1` and `pc + 2`; bytes beyond the instruction's own
length are "not part of the instruction" and are dropped (R78). -/
def Opcode.assemble (o : Opcode) (opa opb : Byte) : Instr :=
  match o with
  | .hlt => .hlt
  | .ldi => .ldi opa opb
  | .prn => .prn opa
  | .mul => .mul opa opb
  | .add => .add opa opb
  | .pop => .pop opa
  | .cmp => .cmp opa opb
  | .jmp => .jmp opa
  | .jeq => .jeq opa
  | .jne => .jne opa
  | .push => .push opa
  | .call => .call opa
  | .ret => .ret

/-- Decoding the three bytes of a speculative fetch; none is an unrecognized opcode byte (R75). -/
def decodeBytes (ir opa opb : Byte) : Option Instr :=
  (Opcode.ofByte ir).map fun o => o.assemble opa opb

/-- Why a sequence of bytes is no instruction. -/
inductive DecodeReject where
  /-- There is no byte at all. -/
  | noBytes
  /-- The opcode byte matches none of the thirteen (R75, R78). -/
  | unrecognizedOpcode (opcode : Byte)
  /-- The opcode is recognized but its operand bytes are not all there (R70). -/
  | truncated (opcode : Byte)
deriving DecidableEq, Repr

/-- Decoding the first instruction of any sequence of bytes, with the bytes that follow it (R70, R71, R75). -/
def decode : List Byte → Except DecodeReject (Instr × List Byte)
  | [] => .error .noBytes
  | ir :: rest =>
    match Opcode.ofByte ir with
    | none => .error (.unrecognizedOpcode ir)
    | some o =>
      match o.format.operandCount, rest with
      | 0, rest => .ok (o.assemble 0#8 0#8, rest)
      | 1, opa :: rest => .ok (o.assemble opa 0#8, rest)
      | 2, opa :: opb :: rest => .ok (o.assemble opa opb, rest)
      | _, _ => .error (.truncated ir)

/-- The operand bytes of an instruction, the byte at `pc + 1` first (R71, R80). -/
def Instr.operandBytes : Instr → List Byte
  | .hlt => []
  | .ldi a imm => [a, imm]
  | .prn a => [a]
  | .mul a b => [a, b]
  | .add a b => [a, b]
  | .pop a => [a]
  | .cmp a b => [a, b]
  | .jmp a => [a]
  | .jeq a => [a]
  | .jne a => [a]
  | .push a => [a]
  | .call a => [a]
  | .ret => []

/-- The bytes of an instruction at ascending addresses (R70, R53). -/
def encode (i : Instr) : List Byte := i.opcode.byte :: i.operandBytes

/-- The three bytes, lowest address first, of an instruction given as the opcode table numbers its bits: bit 0 is the
least significant bit of the first byte, bits 15 to 8 the second; every bit from `nbits` up is 0. -/
def tableBytes (nbits w : Nat) : Byte × Byte × Byte :=
  let v := w % 2 ^ nbits
  (BitVec.ofNat 8 v, BitVec.ofNat 8 (v / 256), BitVec.ofNat 8 (v / 65536))

/-- The instruction the decoder reads from an opcode-table word, or none where it rejects it. -/
def decodeTableWord (nbits w : Nat) : Option Instr :=
  let (b0, b1, b2) := tableBytes nbits w
  match decode [b0, b1, b2] with
  | .ok (i, _) => some i
  | .error _ => none

end Sys2Proof
end

