-- ==== Sys2Proof/Config.lean ====
section
/-!
DEFINITION. The implementation parameters of 00_scope.md R5. The widths (`CELL_BITS`, `XLEN`, `PC_BITS`) and the
counts (`NREGS`, `NFLAGS`) are the types of Word.lean and Machine/State.lean; `FLAG_LAYOUT` is `Flags.packed`
(Machine/Flags.lean).
-/

namespace Sys2Proof

/-- `FETCH_POLICY` (R5): whether a step reads three bytes always (R92, R93) or only those its opcode needs (R100). -/
inductive FetchPolicy where
  | speculative
  | lazy
deriving DecidableEq, Repr

namespace Config

/-- `MEM_SIZE`: valid addresses are 0 to 255. -/
@[simp] abbrev memSize : Nat := 256

/-- `SP_INDEX`: register 7 is the stack pointer (10_state.md R22). -/
@[simp] abbrev spIndex : RegIndex := 7

/-- `SP_RESET`. -/
def spReset : Byte := 0xFF#8

/-- `PC_RESET`. -/
def pcReset : PC := 0#9

/-- `LOAD_BASE`: the address of the first program byte. -/
def loadBase : Nat := 0

/-- `FETCH_POLICY`: the value this hardware takes (spec decision D2). -/
def fetchPolicy : FetchPolicy := .speculative

/-- The free part of `EXIT_STATUS_OTHER_FAULT` (R5: "OPEN (any nonzero value)"; log entry 9). It has no body:
nothing can be proved of its value. -/
opaque exitStatusFree : Nat

/-- `EXIT_STATUS_OTHER_FAULT`: nonzero, otherwise free (60_exceptions.md R187, spec decision D16). -/
def exitStatusOtherFault : Nat := exitStatusFree + 1

end Config

end Sys2Proof
end

