-- ==== Sys2Proof/Machine/State.lean ====
section
/-!
DEFINITION. The architectural state: the tuple of 10_state.md R20 "and nothing else", as plain data, with its reset
value (R36), and the reasons a step of the model has no next state.
-/

namespace Sys2Proof.Machine

/-- The three comparison flags (10_state.md R26): Less-Than, Greater-Than, Equal. Their packed form is
`Flags.packed` (R27). -/
structure Flags where
  l : Bool
  g : Bool
  e : Bool
deriving DecidableEq, Repr

/-- The causes of a fatal condition (60_exceptions.md R171), each with the datum `info` it records
(`FaultCause.info`) and the code of R171 (`FaultCause.code`). -/
inductive FaultCause where
  /-- Code 1: the decode phase met a byte that is none of the thirteen opcodes (R172). -/
  | unrecognizedOpcode (opcode : Byte)
  /-- Code 2: an address to be read or written exceeds 255 (R173). -/
  | outOfRangeMemory (address : Nat)
  /-- Code 3: a register-index operand byte exceeds 7 (R174). -/
  | outOfRangeRegister (operand : Byte)
  /-- Code 4: PUSH or CALL with `SP = 0x00` (R175); the datum is 0x00. -/
  | stackOverflow (sp : Byte)
  /-- Code 5: POP or RET where the value to be incremented is 0xFF (R176); the datum is 0xFF. -/
  | stackUnderflow (sp : Byte)
  /-- Code 6: the ALU was given an operation other than ADD, MUL, CMP (R177); no step raises it. -/
  | unsupportedALUOperation
deriving DecidableEq, Repr

/-- The state element `fault` when it is not `None` (10_state.md R29): the cause with its `info`, and the address of
the opcode byte of the faulting instruction. -/
structure FaultRecord where
  cause : FaultCause
  pc : PC
deriving DecidableEq, Repr

/-- The 256 cells (20_memory.md R50) as the list of those that differ from their reset value 0x00, addresses strictly
rising. `Memory.read` and `Memory.write` (Machine/Ops.lean) are its two operations, `Memory.wf` its canonical form. -/
abbrev Memory := List Host.Cell

/-- The complete architectural state (10_state.md R20). -/
structure State where
  /-- `x[0]` to `x[7]` (R21); entry 7 is the stack pointer (R22). -/
  regs : Vector Byte 8
  /-- The address of the opcode byte of the next instruction (R24, R25). -/
  pc : PC
  /-- `L`, `G`, `E` (R26). -/
  flags : Flags
  /-- Set by HLT alone (R28). -/
  halted : Bool
  /-- `mem[0]` to `mem[255]` (20_memory.md R50). -/
  mem : Memory
  /-- The fatal condition that ended the run, if one did (R29). -/
  fault : Option FaultRecord
  /-- The values PRN has emitted, oldest first (R31). -/
  out : List Byte
deriving DecidableEq, Repr

/-- The machine right after reset, before the loader (10_state.md R36: "None is unspecified"; 70_reset_and_hazards.md
R200). -/
def State.reset : State where
  regs := #v[0#8, 0#8, 0#8, 0#8, 0#8, 0#8, 0#8, Config.spReset]
  pc := Config.pcReset
  flags := { l := false, g := false, e := false }
  halted := false
  mem := []
  fault := none
  out := []

/-- Why the model's step has no next state. These are no faults of the machine (those are the state element `fault`,
written by a step that has a next state): in a terminal state "no step is enabled" (40_fetch_decode_execute.md R90). -/
inductive Fault where
  /-- Raised by `step` alone, when `halted` is true: the terminal state Halted. Safe: the spec enables no step. -/
  | stepWhileHalted
  /-- Raised by `step` alone, when `fault` is not `None`: the terminal state Faulted. Safe: the spec enables no step. -/
  | stepWhileFaulted
deriving DecidableEq, Repr

/-- Why the model gives an instruction no meaning. No meaning answers with a refusal. -/
inductive Refusal where
  /-- An arm of `exec` whose instruction has no meaning yet; safe (the model stops). No arm uses it. -/
  | notModelled (mnemonic : String)
deriving DecidableEq, Repr

end Sys2Proof.Machine
end

