-- ==== Sys2Proof/Machine/Ops.lean ====
section
/-!
DEFINITION. The named operations over memory, registers, program counter and output: the pseudocode primitives of
00_scope.md R8, the stack-pointer steps of 43_stack.md R141, and taking a fault (60_exceptions.md R179) as one shared
operation. There is no return from a fault (R181), so no operation undoes it.
-/

namespace Sys2Proof.Machine

/-! ### Memory cells -/

/-- What an unlisted address reads as: the reset value of a cell (10_state.md R36). -/
def Memory.unlisted : Byte := 0x00#8

/-- The byte stored at an address. -/
def Memory.read : Memory → Nat → Byte
  | [], _ => Memory.unlisted
  | (k, v) :: m, a => if a = k then v else Memory.read m a

/-- Storing one byte, keeping the canonical form: storing the unlisted value removes the cell from the list. -/
def Memory.write : Memory → Nat → Byte → Memory
  | [], a, v => if v = Memory.unlisted then [] else [(a, v)]
  | (k, w) :: m, a, v =>
    if a < k then (if v = Memory.unlisted then (k, w) :: m else (a, v) :: (k, w) :: m)
    else if a = k then (if v = Memory.unlisted then m else (a, v) :: m)
    else (k, w) :: Memory.write m a v

/-- Every listed address is at least `lo`, within the 256 cells and below the next one, and no listed byte is the
unlisted value. -/
def Memory.wfFrom : Nat → Memory → Bool
  | _, [] => true
  | lo, (k, v) :: m =>
    decide (lo ≤ k) && decide (k < Config.memSize) && decide (v ≠ Memory.unlisted) && Memory.wfFrom (k + 1) m

/-- The canonical form of memory: equal memories are equal lists (`Memory.ext` of Laws/Memory.lean). -/
def Memory.wf (m : Memory) : Bool := Memory.wfFrom 0 m

/-! ### Primitives of 00_scope.md R8 -/

/-- `x[i]`. No register is hard-wired (10_state.md R21). -/
def State.readReg (s : State) (r : RegIndex) : Byte := s.regs[r]

/-- `x[i] <- v`. -/
def State.writeReg (s : State) (r : RegIndex) (v : Byte) : State := { s with regs := s.regs.set r v }

/-- `SP`, an alias of `x[7]` (10_state.md R22). -/
def State.sp (s : State) : Byte := s.readReg Config.spIndex

/-- Memory replaced as a whole. -/
def State.setMem (s : State) (m : Memory) : State := { s with mem := m }

/-- `MemRead(addr, 1)` (20_memory.md R51). -/
def State.memRead (s : State) (a : Nat) : Except FaultCause Byte :=
  if a < Config.memSize then .ok (s.mem.read a) else .error (.outOfRangeMemory a)

/-- `MemWrite(addr, 1, v)` (20_memory.md R51). -/
def State.memWrite (s : State) (a : Nat) (v : Byte) : Except FaultCause State :=
  if a < Config.memSize then .ok (s.setMem (s.mem.write a v)) else .error (.outOfRangeMemory a)

/-- `Output(v)`: appends to the output stream and never fails (10_state.md R31). -/
def State.output (s : State) (v : Byte) : State := { s with out := s.out ++ [v] }

/-- `pc <- pc + n` of a sequential instruction (40_fetch_decode_execute.md R96). An instruction executes only where its
bytes lie within memory, so the 9-bit sum is at most 256 and does not wrap (10_state.md R25; log entry 3). -/
def State.advance (s : State) (n : Nat) : State := { s with pc := s.pc + BitVec.ofNat 9 n }

/-- `pc <- target` of a control transfer: an absolute address, 0 to 255 (44_control_transfer.md R155). -/
def State.jump (s : State) (target : Byte) : State := { s with pc := target.setWidth 9 }

/-- `L`, `G`, `E` replaced together (42_alu.md R123: one atomic update). -/
def State.setFlags (s : State) (f : Flags) : State := { s with flags := f }

/-- `halted <- true` (10_state.md R28). -/
def State.halt (s : State) : State := { s with halted := true }

/-! ### The stack pointer's own steps -/

/-- The push side's `SP <- SP - 1`, checked and not wrapping (43_stack.md R141). -/
def State.decSP (s : State) : Except FaultCause State :=
  if s.sp = 0x00#8 then .error (.stackOverflow 0x00#8) else .ok (s.writeReg Config.spIndex (s.sp - 1#8))

/-- The pop side's `SP <- SP + 1`, checked and not wrapping (43_stack.md R141). -/
def State.incSP (s : State) : Except FaultCause State :=
  if s.sp = 0xFF#8 then .error (.stackUnderflow 0xFF#8) else .ok (s.writeReg Config.spIndex (s.sp + 1#8))

/-! ### Faults -/

/-- The codes of 60_exceptions.md R171. -/
def FaultCause.code : FaultCause → Nat
  | .unrecognizedOpcode _ => 1
  | .outOfRangeMemory _ => 2
  | .outOfRangeRegister _ => 3
  | .stackOverflow _ => 4
  | .stackUnderflow _ => 5
  | .unsupportedALUOperation => 6

/-- The datum `info` of 60_exceptions.md R171; cause 6 records none. -/
def FaultCause.info : FaultCause → Option Nat
  | .unrecognizedOpcode b => some b.toNat
  | .outOfRangeMemory a => some a
  | .outOfRangeRegister v => some v.toNat
  | .stackOverflow v => some v.toNat
  | .stackUnderflow v => some v.toNat
  | .unsupportedALUOperation => none

/-- The third component of the record (cause, pc, info) of 10_state.md R29. -/
def FaultRecord.info (r : FaultRecord) : Option Nat := r.cause.info

/-- Fault entry, in full (60_exceptions.md R179): `fault` receives the record with the unchanged `pc`; nothing else
changes (R170, 40_fetch_decode_execute.md R97). -/
def State.takeFault (s : State) (c : FaultCause) : State := { s with fault := some { cause := c, pc := s.pc } }

/-- The end of an instruction that started in `s`: its completed state, or fault entry from `s` itself, so that nothing
of a raising instruction is committed (40_fetch_decode_execute.md R97). -/
def State.complete (s : State) (r : Except FaultCause State) : Host.Outcome State Fault Refusal :=
  match r with
  | .ok t => .next t
  | .error c => .next (s.takeFault c)

/-! ### The run state -/

/-- The run state of 10_state.md R30. -/
inductive RunState where
  | running
  | halted
  | faulted (cause : FaultCause)
deriving DecidableEq, Repr

/-- The run state as a function of `halted` and `fault` (10_state.md R30). -/
def State.runState (s : State) : RunState :=
  if s.halted then .halted
  else match s.fault with
    | none => .running
    | some r => .faulted r.cause

end Sys2Proof.Machine
end

