-- ==== Sys2Proof/Machine/Flags.lean ====
section
/-!
DEFINITION. Every flag computation of the machine: CMP's three-way unsigned comparison (42_alu.md R123, R126), the only
writer of flags (10_state.md R26), and the packed view of the flags (R27).
-/

namespace Sys2Proof.Machine

/-- `compare(a, b)`: clears all three flags, then sets exactly one by the unsigned order (42_alu.md R123). -/
def Flags.compare (u v : Byte) : Flags :=
  if u = v then { l := false, g := false, e := true }
  else if v.toNat < u.toNat then { l := false, g := true, e := false }
  else { l := true, g := false, e := false }

/-- `FL = 0b00000LGE` (10_state.md R27, `FLAG_LAYOUT` of 00_scope.md R5, spec decision D12). No instruction reads or
writes it. -/
def Flags.packed (f : Flags) : Byte :=
  0b000#3 ++ 0b00#2 ++ BitVec.ofBool f.l ++ BitVec.ofBool f.g ++ BitVec.ofBool f.e

/-- At most one flag is set: `L + G + E <= 1` (10_state.md R34). -/
def Flags.atMostOne (f : Flags) : Bool := decide (f.l.toNat + f.g.toNat + f.e.toNat ≤ 1)

end Sys2Proof.Machine
end

