-- ==== Sys2Proof/Machine/Operands.lean ====
section
/-!
DEFINITION. Every operand form of the machine (43_stack.md R144): (i) register direct, (ii) immediate, (iii)
stack-implicit, (iv) register-indirect for control. An immediate is its byte as it stands (30_encoding.md R77) and needs
no operation.
-/

namespace Sys2Proof.Machine

/-- Validation of a register operand byte: 0 to 7 name a register, 8 to 255 raise `OutOfRangeRegister`; the byte is never
masked (30_encoding.md R76, 40_fetch_decode_execute.md R95). -/
def regIndex (b : Byte) : Except FaultCause RegIndex :=
  if h : b.toNat < 8 then .ok ⟨b.toNat, h⟩ else .error (.outOfRangeRegister b)

/-- The effective address of a stack access: the value of `x[7]` itself, with no offset (43_stack.md R144). A push applies
it after its decrement, a pop before its increment. -/
def State.stackSlot (s : State) : Nat := s.sp.toNat

/-- A push (43_stack.md R140): decrement `SP`, then store at the new `SP`. The stored byte is computed from the state
after the decrement (R142: "x[a] is read after the decrement"). -/
def State.push (s : State) (value : State → Byte) : Except FaultCause State := do
  let t ← s.decSP
  t.memWrite t.stackSlot (value t)

/-- A pop (43_stack.md R140): read at `SP`, let `deliver` put the byte at its destination, then increment `SP`, which is
the delivered byte itself when the destination is `x[7]` (R143). -/
def State.pop (s : State) (deliver : State → Byte → State) : Except FaultCause State := do
  let v ← s.memRead s.stackSlot
  (deliver s v).incSP

/-- The return address of a CALL, `pc + 2` (44_control_transfer.md R150). Where it is not a byte the CALL raises
`OutOfRangeMemory(pc + 2)`, which arises under the lazy policy only (40_fetch_decode_execute.md R100; log entry 8). -/
def State.returnAddress (s : State) : Except FaultCause Byte :=
  if s.pc.toNat + 2 < Config.memSize then .ok (BitVec.ofNat 8 (s.pc.toNat + 2))
  else .error (.outOfRangeMemory (s.pc.toNat + 2))

end Sys2Proof.Machine
end

