-- ==== Sys2Proof/Machine/Alu.lean ====
section
/-!
DEFINITION. The ALU's one operation (42_alu.md R120) and the meanings of MUL, ADD and CMP.
-/

namespace Sys2Proof.Machine

/-- `apply(op, regA, regB)` (42_alu.md R120): ADD and MUL write `x[regA]`, mod 256 (R121, R122, R124); CMP writes the
flags (R123); any other operation code is `UnsupportedALUOperation`, which the dispatch never passes. -/
def State.aluApply (s : State) (op : Opcode) (ra rb : RegIndex) : Except FaultCause State :=
  match op with
  | .add => .ok (s.writeReg ra (s.readReg ra + s.readReg rb))
  | .mul => .ok (s.writeReg ra (s.readReg ra * s.readReg rb))
  | .cmp => .ok (s.setFlags (Flags.compare (s.readReg ra) (s.readReg rb)))
  | .hlt | .ldi | .prn | .pop | .jmp | .jeq | .jne | .push | .call | .ret => .error .unsupportedALUOperation

/-- What the three ALU instructions share: both operands validated, `a` before `b` (40_fetch_decode_execute.md R95), the
ALU applied, and the engine's `pc + 3` (42_alu.md R120). -/
def State.aluInstr (s : State) (op : Opcode) (a b : Byte) : Except FaultCause State := do
  let ra ← regIndex a
  let rb ← regIndex b
  let t ← s.aluApply op ra rb
  .ok (t.advance 3)

/-- MUL a, b (R121). -/
def execMul (a b : Byte) (s : State) : Host.Outcome State Fault Refusal :=
  s.complete (s.aluInstr .mul a b)

/-- ADD a, b (R122). -/
def execAdd (a b : Byte) (s : State) : Host.Outcome State Fault Refusal :=
  s.complete (s.aluInstr .add a b)

/-- CMP a, b (R123). -/
def execCmp (a b : Byte) (s : State) : Host.Outcome State Fault Refusal :=
  s.complete (s.aluInstr .cmp a b)

end Sys2Proof.Machine
end

