-- ==== Sys2Proof/Machine/Control.lean ====
section
/-!
DEFINITION. The meanings of CALL, RET, JMP, JEQ and JNE (44_control_transfer.md).
-/

namespace Sys2Proof.Machine

/-- CALL a (R150): the target `x[a]` is read after the push, so `a = 7` jumps to the decremented stack pointer. -/
def execCall (a : Byte) (s : State) : Host.Outcome State Fault Refusal :=
  s.complete do
    let r ← regIndex a
    let ret ← s.returnAddress
    let t ← s.push fun _ => ret
    .ok (t.jump (t.readReg r))

/-- RET (R151): one pop, delivered to `pc`. -/
def execRet (s : State) : Host.Outcome State Fault Refusal :=
  s.complete (s.pop fun t v => t.jump v)

/-- JMP a (R152). -/
def execJmp (a : Byte) (s : State) : Host.Outcome State Fault Refusal :=
  s.complete do
    let r ← regIndex a
    .ok (s.jump (s.readReg r))

/-- JEQ a (R153): the operand is validated whether or not the jump is taken. -/
def execJeq (a : Byte) (s : State) : Host.Outcome State Fault Refusal :=
  s.complete do
    let r ← regIndex a
    .ok (if s.flags.e then s.jump (s.readReg r) else s.advance 2)

/-- JNE a (R154): the operand is validated whether or not the jump is taken. -/
def execJne (a : Byte) (s : State) : Host.Outcome State Fault Refusal :=
  s.complete do
    let r ← regIndex a
    .ok (if s.flags.e then s.advance 2 else s.jump (s.readReg r))

end Sys2Proof.Machine
end

