-- ==== Sys2Proof/Machine/Stack.lean ====
section
/-!
DEFINITION. The meanings of PUSH and POP (43_stack.md).
-/

namespace Sys2Proof.Machine

/-- PUSH a (R142): for `a = 7` the byte stored is the already decremented stack pointer. -/
def execPush (a : Byte) (s : State) : Host.Outcome State Fault Refusal :=
  s.complete do
    let r ← regIndex a
    let t ← s.push fun t => t.readReg r
    .ok (t.advance 2)

/-- POP a (R143): for `a = 7` the value checked and incremented is the popped byte. -/
def execPop (a : Byte) (s : State) : Host.Outcome State Fault Refusal :=
  s.complete do
    let r ← regIndex a
    let t ← s.pop fun t v => t.writeReg r v
    .ok (t.advance 2)

end Sys2Proof.Machine
end

