-- ==== Sys2Proof/Machine/System.lean ====
section
/-!
DEFINITION. The meanings of HLT, LDI and PRN (41_system_data_io.md).
-/

namespace Sys2Proof.Machine

/-- HLT (R110). -/
def execHlt (s : State) : Host.Outcome State Fault Refusal :=
  s.complete (.ok (s.halt.advance 1))

/-- LDI a, imm (R111). -/
def execLdi (a imm : Byte) (s : State) : Host.Outcome State Fault Refusal :=
  s.complete do
    let r ← regIndex a
    .ok ((s.writeReg r imm).advance 3)

/-- PRN a (R112). -/
def execPrn (a : Byte) (s : State) : Host.Outcome State Fault Refusal :=
  s.complete do
    let r ← regIndex a
    .ok ((s.output (s.readReg r)).advance 2)

end Sys2Proof.Machine
end

