-- ==== Sys2Proof/Machine/Engine.lean ====
section
/-!
DEFINITION. The engine's step under either fetch policy (40_fetch_decode_execute.md R92, R100): fetch, decode, and the
dispatched instruction.
-/

namespace Sys2Proof.Machine

/-- Fetch and decode under `speculative` (R92, R93, R94): three reads in ascending order, whatever the opcode. -/
def State.fetchSpeculative (s : State) : Except FaultCause Instr := do
  let ir ← s.memRead s.pc.toNat
  let opa ← s.memRead (s.pc.toNat + 1)
  let opb ← s.memRead (s.pc.toNat + 2)
  match decodeBytes ir opa opb with
  | none => .error (.unrecognizedOpcode ir)
  | some i => .ok i

/-- Fetch and decode under `lazy` (R100): the opcode first, then only the operand bytes its format has. -/
def State.fetchLazy (s : State) : Except FaultCause Instr := do
  let ir ← s.memRead s.pc.toNat
  match Opcode.ofByte ir with
  | none => .error (.unrecognizedOpcode ir)
  | some o =>
    let opa ← if 1 ≤ o.format.operandCount then s.memRead (s.pc.toNat + 1) else .ok 0#8
    let opb ← if o.format.operandCount = 2 then s.memRead (s.pc.toNat + 2) else .ok 0#8
    .ok (o.assemble opa opb)

/-- The fetch and decode phases under a policy. -/
def State.fetch (p : FetchPolicy) (s : State) : Except FaultCause Instr :=
  match p with
  | .speculative => s.fetchSpeculative
  | .lazy => s.fetchLazy

/-- One step under a policy: enabled exactly in the run state Running (R90); a fault of the fetch or decode phase is
taken (R97), otherwise the decoded instruction is executed. -/
def stepWith (p : FetchPolicy) (s : State) : Host.Outcome State Fault Refusal :=
  match s.runState with
  | .halted => .fault .stepWhileHalted
  | .faulted _ => .fault .stepWhileFaulted
  | .running =>
    match s.fetch p with
    | .error c => .next (s.takeFault c)
    | .ok i => exec i s

/-- The policy this hardware takes (00_scope.md R5, spec decision D2). -/
def hardwarePolicy : FetchPolicy := Config.fetchPolicy

/-- One byte stored from outside the machine, where the address exists. -/
def Memory.place (m : Memory) (a : Nat) (v : Byte) : Memory :=
  if a < Config.memSize then m.write a v else m

/-- Three bytes stored from outside the machine at an address and the next two. -/
def Memory.placeThree (m : Memory) (a : Nat) (b : Byte × Byte × Byte) : Memory :=
  ((m.place a b.1).place (a + 1) b.2.1).place (a + 2) b.2.2

end Sys2Proof.Machine
end

