-- ==== Sys2Proof/Machine/Step.lean ====
section
/-!
DEFINITION. The step of this hardware, and an instruction placed where the next step fetches it.
-/

namespace Sys2Proof.Machine

/-- One step: one whole instruction, or one fault (40_fetch_decode_execute.md R91), under the hardware's policy. -/
def step (s : State) : Host.Outcome State Fault Refusal := stepWith hardwarePolicy s

/-- The state with an opcode-table word stored at the program counter, as a loader would leave it (log entry 7). -/
def State.withFetchWord (s : State) (nbits w : Nat) : State :=
  { s with mem := s.mem.placeThree s.pc.toNat (tableBytes nbits w) }

end Sys2Proof.Machine
end

