-- ==== Sys2Proof/Machine/HostView.lean ====
section
/-!
DEFINITION. What the host sees of the core (60_exceptions.md R183, R185, R187): functions of the state that no step reads.
-/

namespace Sys2Proof.Machine

/-- The process exit status of a terminal state (R187): 0 for HLT, 1 for an unrecognized opcode, otherwise the open
nonzero parameter; a running machine has none. -/
def State.exitStatus (s : State) : Option Nat :=
  match s.runState with
  | .running => none
  | .halted => some 0
  | .faulted (.unrecognizedOpcode _) => some 1
  | .faulted (.outOfRangeMemory _) => some Config.exitStatusOtherFault
  | .faulted (.outOfRangeRegister _) => some Config.exitStatusOtherFault
  | .faulted (.stackOverflow _) => some Config.exitStatusOtherFault
  | .faulted (.stackUnderflow _) => some Config.exitStatusOtherFault
  | .faulted .unsupportedALUOperation => some Config.exitStatusOtherFault

/-- The output stream as the host renders it: one decimal value per line (10_state.md R31, R183), without padding
(log entry 11). -/
def State.printed (s : State) : List (List Char) := s.out.map fun b => Nat.toDigits 10 b.toNat

/-- The trace tap (00_scope.md R6, R185): `pc`, the three bytes at `pc` and the eight registers; none where the three
bytes are not all inside memory (log entry 11). -/
def State.traceTap (s : State) : Option (PC × List Byte × List Byte) :=
  if s.pc.toNat + 2 < Config.memSize then
    some (s.pc, [s.mem.read s.pc.toNat, s.mem.read (s.pc.toNat + 1), s.mem.read (s.pc.toNat + 2)], s.regs.toList)
  else none

/-- Two hexadecimal digits, capitals as in the spec's example S11 (95_test_vectors.md). -/
def hexPair (n : Nat) : List Char :=
  [n / 16 % 16, n % 16].map fun d => if d < 10 then Char.ofNat (48 + d) else Char.ofNat (55 + d)

/-- A group of values, single spaces between them. -/
def hexGroup : List Nat → List Char
  | [] => []
  | [n] => hexPair n
  | n :: rest => hexPair n ++ ' ' :: hexGroup rest

/-- `TRACE: PC | byte0 byte1 byte2 | r0 r1 ... r7`, each value two-digit hexadecimal (R185). -/
def State.traceLine (s : State) : Option (List Char) :=
  s.traceTap.map fun (pc, bytes, regs) =>
    ['T', 'R', 'A', 'C', 'E', ':', ' '] ++ hexPair pc.toNat ++ [' ', '|', ' ']
      ++ hexGroup (bytes.map BitVec.toNat) ++ [' ', '|', ' '] ++ hexGroup (regs.map BitVec.toNat)

end Sys2Proof.Machine
end

