-- ==== Sys2Proof/Machine/Loader.lean ====
section
/-!
DEFINITION. The start state of a run (70_reset_and_hazards.md R204): the loader's contract over bytes (R201, R202, R203)
and the program-text format (30_encoding.md R79). The loader is outside the core (00_scope.md R4): no step depends on it.
-/

namespace Sys2Proof.Machine

/-- Why no run exists (R203). -/
inductive LoadFailure where
  /-- A byte would be written outside 0 to 255: the program is over 256 bytes (R202, spec decision D19). -/
  | programTooLong
  /-- LoadError: "malformed line in the program source (non-binary token)" (R203, 60_exceptions.md R177). -/
  | nonBinaryToken
  /-- A binary token that is not 8 digits long: the spec does not say (91_not_in_source.md N10; log entry 10). -/
  | tokenLengthOpen
  /-- White space before the first token: the spec does not say (91_not_in_source.md N10; log entry 10). -/
  | leadingSpaceOpen
deriving DecidableEq, Repr

/-- Program bytes written at ascending addresses through the memory's `write` contract (R201). -/
def State.loadBytes (s : State) (a : Nat) : List Byte → Except FaultCause State
  | [] => .ok s
  | b :: bs => do
    let t ← s.memWrite a b
    t.loadBytes (a + 1) bs

/-- The start state of a run on a program (R204), or the load failure (R202). -/
def State.load (program : List Byte) : Except LoadFailure State :=
  match State.reset.loadBytes Config.loadBase program with
  | .ok s => .ok s
  | .error _ => .error .programTooLong

/-- The separators inside a line (log entry 10). -/
def isSeparator (c : Char) : Bool := c == ' ' || c == '\t' || c == '\r'

/-- A token of binary digits as a number, most significant digit first (R79). -/
def binaryValue : Nat → List Char → Option Nat
  | acc, [] => some acc
  | acc, c :: cs =>
    if c == '0' then binaryValue (2 * acc) cs
    else if c == '1' then binaryValue (2 * acc + 1) cs
    else none

/-- One line of program text (R79): a comment or a blank line gives no byte, another line the byte its first token
spells. -/
def parseLine (line : List Char) : Except LoadFailure (Option Byte) :=
  if line.all isSeparator then .ok none
  else if line.head? == some '#' then .ok none
  else
    let token := line.takeWhile fun c => !isSeparator c
    if token.isEmpty then .error .leadingSpaceOpen
    else match binaryValue 0 token with
      | none => .error .nonBinaryToken
      | some v => if token.length = 8 then .ok (some (BitVec.ofNat 8 v)) else .error .tokenLengthOpen

/-- The program's bytes, in line order: the k-th line that is neither comment nor blank is byte k (R79, R201). -/
def parseLines : List (List Char) → Except LoadFailure (List Byte)
  | [] => .ok []
  | line :: rest => do
    let b ← parseLine line
    let bs ← parseLines rest
    .ok (b.toList ++ bs)

/-- A byte's line in a program text: 8 binary digits, most significant bit first (R79). -/
def binaryLine (b : Byte) : List Char :=
  [7, 6, 5, 4, 3, 2, 1, 0].map fun i => if b.getLsbD i then '1' else '0'

/-- The start state of a run on the lines of a program text (R79, R201, R203). -/
def State.loadText (lines : List (List Char)) : Except LoadFailure State := do
  let program ← parseLines lines
  State.load program

end Sys2Proof.Machine
end

