-- ==== Sys2Proof/Safety.lean ====
section
/-!
DEFINITION. The terms claims are made in: the machine is running, a fault was taken, and the invariant of every reachable
state (10_state.md R34 with what 60_exceptions.md R171 says of a fault record).
-/

namespace Sys2Proof.Machine

/-- The run state is Running (10_state.md R30): the states in which a step is enabled. -/
def State.Running (s : State) : Prop := s.halted = false ∧ s.fault = none

/-- The state in which the fault `c` has been taken from `s`, written out as data: the record holds the cause with its
datum and the unchanged `pc`, and nothing else differs (60_exceptions.md R170, R179). -/
def State.Faulted (s : State) (c : FaultCause) : State :=
  { regs := s.regs, pc := s.pc, flags := s.flags, halted := s.halted, mem := s.mem,
    fault := some { cause := c, pc := s.pc }, out := s.out }

/-- A record of 60_exceptions.md R171: each cause with the data it can record (an unrecognized byte; the address 256; an
operand byte 8 to 255; 0x00; 0xFF), and never cause 6. -/
def FaultCause.possible : FaultCause → Bool
  | .unrecognizedOpcode b => (Opcode.ofByte b).isNone
  | .outOfRangeMemory a => decide (a = 256)
  | .outOfRangeRegister v => decide (8 ≤ v.toNat)
  | .stackOverflow v => decide (v = 0x00#8)
  | .stackUnderflow v => decide (v = 0xFF#8)
  | .unsupportedALUOperation => false

/-- What holds in every reachable state (10_state.md R34; 60_exceptions.md R171 for the record): memory is in its
canonical form within the 256 cells; at most one flag is set; `pc` is at most 256; `halted` and a fault never hold
together; a recorded fault is a possible one and its `pc` is the machine's. -/
def State.Inv (s : State) : Prop :=
  s.mem.wf = true ∧ s.flags.atMostOne = true ∧ s.pc.toNat ≤ 256 ∧ ¬ (s.halted = true ∧ s.fault.isSome = true) ∧
    ∀ r, s.fault = some r → r.cause.possible = true ∧ r.pc = s.pc

/-- The stack fault an instruction with legal operands meets in a state, if it meets one (43_stack.md R141): push side
with `SP = 0x00`, pop side where the value to be incremented is 0xFF. -/
def State.stackFault (s : State) : Instr → Option FaultCause
  | .push _ | .call _ => if s.sp = 0x00#8 then some (.stackOverflow 0x00#8) else none
  | .pop a => if (if a = 7#8 then s.mem.read s.stackSlot else s.sp) = 0xFF#8 then some (.stackUnderflow 0xFF#8) else none
  | .ret => if s.sp = 0xFF#8 then some (.stackUnderflow 0xFF#8) else none
  | .hlt | .ldi _ _ | .prn _ | .mul _ _ | .add _ _ | .cmp _ _ | .jmp _ | .jeq _ | .jne _ => none

/-- The first register operand byte that names no register, in the order of validation (40_fetch_decode_execute.md R95). -/
def firstBadOperand (i : Instr) : Option Byte := i.regOperands.find? fun b => decide (8 ≤ b.toNat)

/-- The machine with its fetch policy as a parameter (40_fetch_decode_execute.md R92, R100). -/
def coreWith (p : FetchPolicy) : Host.Core :=
  { State := State, Fault := Fault, Refusal := Refusal, step := stepWith p, reset := State.reset }

/-- An address the fetch has to read exceeds 255: under `speculative` one of `pc`, `pc + 1`, `pc + 2` (R93); under `lazy`
`pc`, or an operand byte that the recognized opcode's format has (R100). -/
def State.fetchRunsPast (s : State) : FetchPolicy → Prop
  | .speculative => 254 ≤ s.pc.toNat
  | .lazy => 255 < s.pc.toNat ∨ ∃ o, Opcode.ofByte (s.mem.read s.pc.toNat) = some o ∧ 256 < s.pc.toNat + o.length

/-- "Common fetch faults" (head of 41_system_data_io.md): `OutOfRangeMemory` from the fetch phase when `pc >= 254`, with
the first address past 255 (40_fetch_decode_execute.md R93), whatever the bytes there. -/
def CommonFetchFaults : Prop :=
  ∀ s : State, s.Running → 254 ≤ s.pc.toNat →
    step s = .next (s.Faulted (.outOfRangeMemory (if 255 < s.pc.toNat then s.pc.toNat else 256)))

end Sys2Proof.Machine
end

