-- ==== Sys2Proof/Certificates/Slice0/Obligations.lean ====
section
/-!
DEFINITION. The statements for the provers: the numbered rules of spec/ that say what an instruction or the machine does.
Each docstring names the rule or the section; where it names a decision D<n> (92_eei_decisions.md), that clause is the
spec's own choice, not its source's.
-/

open Sys2Proof Sys2Proof.Machine

/-- The opcode map is the thirteen rows of the table, bit for bit (R72). -/
def Obligations.OpcodeMapIsBitExact : Prop :=
  Opcode.all.map (fun o => (o, o.byte, o.format, o.length)) =
    [(.hlt, 0x01#8, .z, 1), (.ldi, 0x82#8, .ri, 3), (.prn, 0x47#8, .r, 2), (.mul, 0xA2#8, .rr, 3), (.add, 0xA0#8, .rr, 3),
     (.pop, 0x46#8, .r, 2), (.cmp, 0xA7#8, .rr, 3), (.jmp, 0x54#8, .r, 2), (.jeq, 0x55#8, .r, 2), (.jne, 0x56#8, .r, 2),
     (.push, 0x45#8, .r, 2), (.call, 0x50#8, .r, 2), (.ret, 0x11#8, .z, 1)] ∧
  (∀ o : Opcode, o ∈ Opcode.all) ∧ (∀ o : Opcode, Opcode.ofByte o.byte = some o)

/-- Words written out from the spec's encodings decode to the instructions they stand for (30_encoding.md sections 1
to 3). -/
def Obligations.SampleWordsDecode : Prop :=
  decode [0b10000010#8, 0b00000011#8, 0b11111111#8] = .ok (.ldi 3#8 255#8, []) ∧
  decode [0b10100111#8, 0b00000001#8, 0b00000010#8] = .ok (.cmp 1#8 2#8, []) ∧
  decode [0b01000101#8, 0b00000111#8, 0b00000000#8] = .ok (.push 7#8, [0#8]) ∧
  decode [0b00010001#8, 0b01000111#8, 0b00001001#8] = .ok (.ret, [71#8, 9#8]) ∧
  decode [0b00000010#8, 0b00000000#8, 0b00000000#8] = .error (.unrecognizedOpcode 2#8) ∧
  decode [0b10100000#8, 0b00000000#8] = .error (.truncated 160#8) ∧ decode [] = .error .noBytes

/-- Decoding and encoding are inverse to each other, for every instruction and every byte sequence (30_encoding.md
sections 1 to 4). -/
def Obligations.DecodeEncodeRoundTrip : Prop :=
  (∀ (i : Instr) (rest : List Byte), decode (encode i ++ rest) = .ok (i, rest)) ∧
  (∀ (bytes rest : List Byte) (i : Instr), decode bytes = .ok (i, rest) → bytes = encode i ++ rest)

/-- The decoder is a whole-byte match: thirteen opcode bytes decode, the other 243 do not (R75). -/
def Obligations.ThirteenBytesDecode : Prop :=
  (∀ ir opa opb : Byte,
      (∃ i, decodeBytes ir opa opb = some i ∧ encode i = [ir, opa, opb].take i.length) ∨
        (decodeBytes ir opa opb = none ∧ ∀ o : Opcode, o.byte ≠ ir)) ∧
  (∀ (o : Opcode) (opa opb : Byte), ∃ i, decodeBytes o.byte opa opb = some i ∧ i.opcode = o) ∧
  ((List.range 256).filter fun n => (Opcode.ofByte (BitVec.ofNat 8 n)).isSome).length = 13 ∧
  ((List.range 256).filter fun n => (Opcode.ofByte (BitVec.ofNat 8 n)).isNone).length = 243 ∧
  (∀ s : State, s.Running → s.pc.toNat ≤ 253 → (∀ o : Opcode, o.byte ≠ s.mem.read s.pc.toNat) →
      step s = .next (s.Faulted (.unrecognizedOpcode (s.mem.read s.pc.toNat))))

/-- A step runs the instruction the bytes at pc decode to (40_fetch_decode_execute.md sections 1 and 2). -/
def Obligations.StepRunsDecodedInstruction : Prop :=
  (∀ (s : State) (i : Instr) (rest : List Byte), s.Running → s.pc.toNat ≤ 253 →
      decode [s.mem.read s.pc.toNat, s.mem.read (s.pc.toNat + 1), s.mem.read (s.pc.toNat + 2)] = .ok (i, rest) →
      step s = exec i s) ∧
  (∀ (s : State) (i : Instr), s.Running → s.pc.toNat ≤ 253 →
      (∀ (k : Nat) (h : k < (encode i).length), s.mem.read (s.pc.toNat + k) = (encode i)[k]) → step s = exec i s)

/-- A fetch that reaches past address 255 raises OutOfRangeMemory with the first such address, and no other does
(R93). Rests on the spec's decision D2 (the speculative policy). -/
def Obligations.FetchBeyondMemoryFaults : Prop :=
  CommonFetchFaults ∧
  (∀ s : State, s.pc.toNat ≤ 253 →
      s.fetch hardwarePolicy =
        match decodeBytes (s.mem.read s.pc.toNat) (s.mem.read (s.pc.toNat + 1)) (s.mem.read (s.pc.toNat + 2)) with
        | some i => .ok i
        | none => .error (.unrecognizedOpcode (s.mem.read s.pc.toNat)))

/-- A step is enabled exactly in the run state Running (R90). Rests on the spec's decision D22. -/
def Obligations.StepEnabledExactlyWhenRunning : Prop :=
  ∀ (p : FetchPolicy) (s : State),
    ((∃ t, stepWith p s = .next t) ↔ s.Running) ∧ (s.Running ↔ s.runState = .running)

/-- Faults are precise: a step that raises changes only the fault record (R97). Rests on the spec's decision D8. -/
def Obligations.FaultingStepCommitsNothing : Prop :=
  ∀ (p : FetchPolicy) (s t : State), stepWith p s = .next t → t.fault ≠ none → ∃ c, t = s.Faulted c

/-- Each fault cause is recorded only under its own condition, with its own datum (R171). Rests on the spec's decision
D10. -/
def Obligations.FaultCausesMatchTheirConditions : Prop :=
  (∀ (p : FetchPolicy) (s t : State) (r : FaultRecord), stepWith p s = .next t → t.fault = some r →
      r.pc = s.pc ∧
      match r.cause with
      | .unrecognizedOpcode b => r.info = some b.toNat ∧ b = s.mem.read s.pc.toNat ∧ (∀ o : Opcode, o.byte ≠ b) ∧
          ¬ s.fetchRunsPast p
      | .outOfRangeMemory a => r.info = some a ∧ 255 < a ∧ a = (if 255 < s.pc.toNat then s.pc.toNat else 256) ∧
          (s.fetchRunsPast p ∨ (p = .lazy ∧ s.pc.toNat = 254 ∧ ∃ b, s.fetch p = .ok (.call b)))
      | .outOfRangeRegister v => r.info = some v.toNat ∧ 8 ≤ v.toNat ∧
          ∃ i, s.fetch p = .ok i ∧ v ∈ i.regOperands ∧ firstBadOperand i = some v
      | .stackOverflow v => r.info = some 0x00 ∧ v = 0x00#8 ∧ s.sp = 0x00#8 ∧
          ((∃ a, s.fetch p = .ok (.push a)) ∨ ∃ a, s.fetch p = .ok (.call a))
      | .stackUnderflow v => r.info = some 0xFF ∧ v = 0xFF#8 ∧
          ((s.fetch p = .ok .ret ∧ s.sp = 0xFF#8) ∨
            ∃ a, s.fetch p = .ok (.pop a) ∧ (if a = 7#8 then s.mem.read s.stackSlot else s.sp) = 0xFF#8)
      | .unsupportedALUOperation => False) ∧
  (∀ (b : Byte) (a : Nat), FaultCause.code (.unrecognizedOpcode b) = 1 ∧ FaultCause.code (.outOfRangeMemory a) = 2 ∧
      FaultCause.code (.outOfRangeRegister b) = 3 ∧ FaultCause.code (.stackOverflow b) = 4 ∧
      FaultCause.code (.stackUnderflow b) = 5 ∧ FaultCause.code .unsupportedALUOperation = 6 ∧
      FaultCause.info .unsupportedALUOperation = none)

/-- A step raises the first fault met in the order of R178, and completes where it meets none (R178). Rests on the
spec's decision D9. -/
def Obligations.FaultPriority : Prop :=
  (∀ s : State, s.Running →
      (254 ≤ s.pc.toNat →
        step s = .next (s.Faulted (.outOfRangeMemory (if 255 < s.pc.toNat then s.pc.toNat else 256)))) ∧
      (s.pc.toNat ≤ 253 → Opcode.ofByte (s.mem.read s.pc.toNat) = none →
        step s = .next (s.Faulted (.unrecognizedOpcode (s.mem.read s.pc.toNat)))) ∧
      (∀ i, s.pc.toNat ≤ 253 →
        decodeBytes (s.mem.read s.pc.toNat) (s.mem.read (s.pc.toNat + 1)) (s.mem.read (s.pc.toNat + 2)) = some i →
        (∀ v, firstBadOperand i = some v → step s = .next (s.Faulted (.outOfRangeRegister v))) ∧
        (∀ c, firstBadOperand i = none → s.stackFault i = some c → step s = .next (s.Faulted c)) ∧
        (firstBadOperand i = none → s.stackFault i = none → ∃ t, step s = .next t ∧ t.fault = none))) ∧
  (∀ s : State, s.Running →
      (255 < s.pc.toNat → stepWith .lazy s = .next (s.Faulted (.outOfRangeMemory s.pc.toNat))) ∧
      (s.pc.toNat ≤ 255 → Opcode.ofByte (s.mem.read s.pc.toNat) = none →
        stepWith .lazy s = .next (s.Faulted (.unrecognizedOpcode (s.mem.read s.pc.toNat)))) ∧
      (∀ o, s.pc.toNat ≤ 255 → Opcode.ofByte (s.mem.read s.pc.toNat) = some o → 256 < s.pc.toNat + o.length →
        stepWith .lazy s = .next (s.Faulted (.outOfRangeMemory 256))) ∧
      (∀ o i, Opcode.ofByte (s.mem.read s.pc.toNat) = some o → s.pc.toNat + o.length ≤ 256 →
        i = o.assemble (s.mem.read (s.pc.toNat + 1)) (s.mem.read (s.pc.toNat + 2)) →
        (∀ v, firstBadOperand i = some v → stepWith .lazy s = .next (s.Faulted (.outOfRangeRegister v))) ∧
        (firstBadOperand i = none → o = .call → s.pc.toNat = 254 →
          stepWith .lazy s = .next (s.Faulted (.outOfRangeMemory 256))) ∧
        (∀ c, firstBadOperand i = none → ¬ (o = .call ∧ s.pc.toNat = 254) → s.stackFault i = some c →
          stepWith .lazy s = .next (s.Faulted c)) ∧
        (firstBadOperand i = none → ¬ (o = .call ∧ s.pc.toNat = 254) → s.stackFault i = none →
          ∃ t, stepWith .lazy s = .next t ∧ t.fault = none)))

/-- A register operand byte above 7 raises OutOfRangeRegister before any effect, whatever the instruction (R95, R174).
Rests on the spec's decisions D4 and D5. -/
def Obligations.BadRegisterOperandFaults : Prop :=
  (∀ (i : Instr) (s : State) (v : Byte), firstBadOperand i = some v →
      8 ≤ v.toNat ∧ exec i s = .next (s.Faulted (.outOfRangeRegister v))) ∧
  (∀ i : Instr, i.regOperands =
      match i.opcode.format with
      | .z => []
      | .r => i.operandBytes.take 1
      | .rr => i.operandBytes.take 2
      | .ri => i.operandBytes.take 1)

/-- An opcode byte that is none of the thirteen raises UnrecognizedOpcode, with host exit status 1 (R172). -/
def Obligations.UnrecognizedOpcodeFaults : Prop :=
  ∀ (p : FetchPolicy) (s : State), s.Running → s.pc.toNat ≤ (match p with | .speculative => 253 | .lazy => 255) →
    s.mem.read s.pc.toNat ∉ [0x01#8, 0x11#8, 0x45#8, 0x46#8, 0x47#8, 0x50#8, 0x54#8, 0x55#8, 0x56#8, 0x82#8, 0xA0#8, 0xA2#8, 0xA7#8] →
    stepWith p s = .next (s.Faulted (.unrecognizedOpcode (s.mem.read s.pc.toNat))) ∧
      (s.Faulted (.unrecognizedOpcode (s.mem.read s.pc.toNat))).exitStatus = some 1

/-- Every step keeps the invariant of the state (10_state.md section 8 (an inference the spec marks as derived),
60_exceptions.md section 1). -/
def Obligations.StepKeepsInvariant : Prop :=
  ∀ (p : FetchPolicy) (s t : State), s.Inv → stepWith p s = .next t → t.Inv

/-- The reset state meets the invariant (10_state.md sections 8 and 9). -/
def Obligations.ResetMeetsInvariant : Prop :=
  State.reset.Inv

/-- Every state of every run of every loadable program meets the invariant (10_state.md section 8 (an inference the
spec marks as derived), 70_reset_and_hazards.md section 2). -/
def Obligations.LoadedRunsMeetInvariant : Prop :=
  ∀ (program : List Byte) (s t : State) (k : Nat),
    State.load program = .ok s → Host.Core.run Sys2Proof.core k s = .next t → t.Inv

/-- Only CMP writes the flags; only JEQ and JNE read them, and they read E only (R26). -/
def Obligations.FlagsWrittenByCmpReadByConditionalJumps : Prop :=
  (∀ (p : FetchPolicy) (s t : State), stepWith p s = .next t → t.flags ≠ s.flags →
      ∃ a b, s.fetch p = .ok (.cmp a b) ∧ t.flags.l.toNat + t.flags.g.toNat + t.flags.e.toNat = 1) ∧
  (∀ (i : Instr) (s t : State) (f : Flags),
      ((∀ a, i ≠ .jeq a ∧ i ≠ .jne a) ∨ f.e = s.flags.e) → exec i s = .next t →
      ∃ u, exec i (s.setFlags f) = .next u ∧ u.setFlags t.flags = t ∧
        ((u.flags = f ∧ t.flags = s.flags) ∨ (u.flags = t.flags ∧ ∃ a b, i = .cmp a b))) ∧
  (State.reset.flags.l = false ∧ State.reset.flags.g = false ∧ State.reset.flags.e = false) ∧
  (∀ (p : FetchPolicy) (s t : State), stepWith p s = .next t → s.flags.atMostOne = true → t.flags.atMostOne = true)

/-- halted is set by HLT and by nothing else, and never cleared (R28). -/
def Obligations.HaltedSetOnlyByHlt : Prop :=
  State.reset.halted = false ∧
  (∀ (p : FetchPolicy) (s t : State), stepWith p s = .next t → t.halted = true → s.fetch p = .ok .hlt) ∧
  (∀ (i : Instr) (s t : State), exec i s = .next t → (t.halted = true ↔ s.halted = true ∨ i = .hlt)) ∧
  (∀ (p : FetchPolicy) (s : State), s.halted = true → s.runState = .halted ∧ ∀ t, stepWith p s ≠ .next t)

/-- Only PRN touches the output stream, by appending one register value, and nothing reads it (R31). Rests on the
spec's decision D15. -/
def Obligations.OutputIsAppendOnly : Prop :=
  State.reset.out = [] ∧
  (∀ (i : Instr) (s t : State), exec i s = .next t →
      (t.out = s.out ∧ ∀ a, i = .prn a → 8 ≤ a.toNat) ∨
        ∃ (a : Byte) (ha : a.toNat < 8), i = .prn a ∧ t.out = s.out ++ [s.readReg ⟨a.toNat, ha⟩]) ∧
  (∀ (a : Byte) (ha : a.toNat < 8) (s : State),
      ∃ t, exec (.prn a) s = .next t ∧ t.fault = s.fault ∧ t.out = s.out ++ [s.readReg ⟨a.toNat, ha⟩]) ∧
  (∀ (p : FetchPolicy) (s t : State), stepWith p s = .next t → t.fault ≠ none → t.out = s.out) ∧
  (∀ (i : Instr) (s t : State) (o : List Byte), exec i s = .next t →
      exec i { s with out := o ++ s.out } = .next { t with out := o ++ t.out })

/-- Only PUSH and CALL change memory, only at SP - 1, and never address 255 (20_memory.md sections 1 and 3,
43_stack.md section 3). -/
def Obligations.MemoryWrittenOnlyByPushAndCall : Prop :=
  ∀ (p : FetchPolicy) (s t : State) (b : Nat), s.mem.wf = true → stepWith p s = .next t → t.mem.read b ≠ s.mem.read b →
    ((∃ a, s.fetch p = .ok (.push a)) ∨ ∃ a, s.fetch p = .ok (.call a)) ∧
      b + 1 = s.stackSlot ∧ b = t.stackSlot ∧ b ≤ 254

/-- A step reads memory only at pc, pc + 1 and pc + 2, and at SP for POP and RET (20_memory.md section 1). -/
def Obligations.MemoryReadFootprint : Prop :=
  ∀ (s t : State) (m : Memory), step s = .next t →
    (∀ k, k < 3 → m.read (s.pc.toNat + k) = s.mem.read (s.pc.toNat + k)) →
    (∀ i, s.fetch hardwarePolicy = .ok i → ((∃ a, i = .pop a) ∨ i = .ret) → m.read s.stackSlot = s.mem.read s.stackSlot) →
    ∃ u, step { s with mem := m } = .next u ∧ { u with mem := t.mem } = t

/-- Which instruction may change which register, and by how much the stack pointer moves (10_state.md section 2,
43_stack.md sections 1 and 3). -/
def Obligations.RegistersChangeOnlyAsListed : Prop :=
  ∀ (i : Instr) (s t : State), exec i s = .next t →
    (∀ q : RegIndex, t.readReg q ≠ s.readReg q →
      match i with
      | .ldi a _ | .mul a _ | .add a _ => a.toNat = q.val
      | .pop a => a.toNat = q.val ∨ q = 7
      | .push _ | .call _ | .ret => q = 7
      | .hlt | .prn _ | .cmp _ _ | .jmp _ | .jeq _ | .jne _ => False) ∧
    (t.sp ≠ s.sp →
      match i with
      | .push _ | .call _ => t.sp.toNat + 1 = s.sp.toNat
      | .ret => t.sp.toNat = s.sp.toNat + 1
      | .pop a => a ≠ 7#8 → t.sp.toNat = s.sp.toNat + 1
      | _ => True)

/-- The two fetch policies give the same step wherever pc is at most 253 (40_fetch_decode_execute.md section 4). -/
def Obligations.FetchPoliciesAgreeBelow254 : Prop :=
  ∀ s : State, s.pc.toNat ≤ 253 → stepWith .lazy s = stepWith .speculative s

/-- Every state that faults under the lazy policy faults under the speculative policy (40_fetch_decode_execute.md
section 4 (the first clause is an inference the spec marks as derived)). -/
def Obligations.SpeculativeFaultsWhereLazyFaults : Prop :=
  (∀ s t : State, stepWith .lazy s = .next t → t.fault ≠ none → ∃ u, stepWith .speculative s = .next u ∧ u.fault ≠ none) ∧
  (∀ s : State, s.Running → 254 ≤ s.pc.toNat → s.pc.toNat ≤ 255 → s.mem.read s.pc.toNat = 0x01#8 →
      ∃ t, stepWith .lazy s = .next t ∧ t.halted = true ∧ t.fault = none ∧ t.pc.toNat = s.pc.toNat + 1) ∧
  (∀ s : State, s.Running → s.pc.toNat = 254 → s.mem.read 254 = 0x50#8 → (s.mem.read 255).toNat < 8 →
      stepWith .lazy s = .next (s.Faulted (.outOfRangeMemory 256)))

/-- A run of the hardware without a fault is the same run under the lazy policy (40_fetch_decode_execute.md sections 3
and 4). -/
def Obligations.SpeculativeRunsAreLazyRuns : Prop :=
  ∀ (k : Nat) (s t : State), Host.Core.run (coreWith .speculative) k s = .next t → t.fault = none →
    Host.Core.run (coreWith .lazy) k s = .next t

/-- Every state element has its value of the reset table (R36). Rests on the spec's decisions D10, D11 and D15. -/
def Obligations.ResetState : Prop :=
  (∀ q : RegIndex, State.reset.readReg q = if q = 7 then 0xFF#8 else 0x00#8) ∧ State.reset.pc = 0#9 ∧
  State.reset.flags = { l := false, g := false, e := false } ∧ State.reset.halted = false ∧
  (∀ b, State.reset.mem.read b = 0x00#8) ∧ State.reset.fault = none ∧ State.reset.out = [] ∧
  (∀ (program : List Byte) (s : State), State.load program = .ok s → s.pc = 0#9 ∧
    (∀ (k : Nat) (h : k < program.length), s.mem.read k = program[k]) ∧ ∀ k, program.length ≤ k → s.mem.read k = 0x00#8)

/-- With the flags of reset, JEQ falls through and JNE jumps (R35). Rests on the spec's decision D11 (log entry 6). -/
def Obligations.FlagsAtResetAreClear : Prop :=
  State.reset.flags = { l := false, g := false, e := false } ∧
  (∀ (a : Byte) (ha : a.toNat < 8) (s : State), s.flags = State.reset.flags → s.pc.toNat ≤ 254 →
    ∃ t u, exec (.jeq a) s = .next t ∧ t.pc.toNat = s.pc.toNat + 2 ∧
      exec (.jne a) s = .next u ∧ u.pc.toNat = (s.readReg ⟨a.toNat, ha⟩).toNat)

/-- The loader places byte k at address k, touches nothing but memory, and fails past 256 bytes (R201, R202). The
refusal of an oversize program rests on the spec's decision D19. -/
def Obligations.LoaderPlacesProgram : Prop :=
  (∀ program : List Byte, program.length ≤ 256 →
      ∃ s, State.load program = .ok s ∧ s = { State.reset with mem := s.mem } ∧ s.mem.wf = true ∧
        (∀ (k : Nat) (h : k < program.length), s.mem.read k = program[k]) ∧
        (∀ k, program.length ≤ k → s.mem.read k = 0x00#8)) ∧
  (∀ program : List Byte, 256 < program.length → State.load program = .error .programTooLong)

/-- A program text with one 8-digit token per byte loads as those bytes (30_encoding.md section 5,
70_reset_and_hazards.md section 2). -/
def Obligations.ProgramTextSpellsItsBytes : Prop :=
  (∀ program : List Byte, State.loadText (program.map binaryLine) = State.load program) ∧
  (∀ (text : List Char) (lines : List (List Char)), State.loadText (('#' :: text) :: lines) = State.loadText lines) ∧
  (∀ lines : List (List Char), State.loadText ([] :: lines) = State.loadText lines)

/-- read and write on the 256 cells: the stored byte, nothing else, and OutOfRangeMemory outside (R51). Rests on the
spec's decision D3. -/
def Obligations.MemoryAccessContract : Prop :=
  ∀ (s : State) (a : Nat) (v : Byte), s.mem.wf = true →
    (a ≤ 255 → s.memRead a = .ok (s.mem.read a) ∧
      ∃ t, s.memWrite a v = .ok t ∧ t = { s with mem := t.mem } ∧ t.mem.wf = true ∧
        ∀ b, t.mem.read b = if b = a then v else s.mem.read b) ∧
    (255 < a → s.memRead a = .error (.outOfRangeMemory a) ∧ s.memWrite a v = .error (.outOfRangeMemory a))

/-- A byte stored by PUSH or CALL is what the next fetch of that cell sees, as an opcode or an operand (20_memory.md
section 4). -/
def Obligations.PushedByteIsWhatIsFetched : Prop :=
  ∀ (i : Instr) (a : Byte) (ha : a.toNat < 8) (s t u : State) (k : Nat), (i = .push a ∨ i = .call a) → s.mem.wf = true →
    exec i s = .next t → t.fault = none → u.mem = t.mem → u.Running → k < 3 → u.pc.toNat + k = t.stackSlot →
    u.pc.toNat ≤ 253 →
    ∃ v ir opa opb : Byte, (i = .push a → v = t.readReg ⟨a.toNat, ha⟩) ∧ (i = .call a → v.toNat = s.pc.toNat + 2) ∧
      ir = (if k = 0 then v else s.mem.read u.pc.toNat) ∧ opa = (if k = 1 then v else s.mem.read (u.pc.toNat + 1)) ∧
      opb = (if k = 2 then v else s.mem.read (u.pc.toNat + 2)) ∧
      step u = match decodeBytes ir opa opb with
        | some j => exec j u
        | none => .next (u.Faulted (.unrecognizedOpcode ir))

/-- HLT sets halted, advances pc by one and changes nothing else (R110). -/
def Obligations.HltHalts : Prop :=
  ∀ s : State,
    (s.pc.toNat ≤ 255 →
      ∃ t, exec .hlt s = .next t ∧ t.halted = true ∧ t.pc.toNat = s.pc.toNat + 1 ∧ t.regs = s.regs ∧ t.flags = s.flags ∧
        t.mem = s.mem ∧ t.fault = s.fault ∧ t.out = s.out ∧ t.runState = .halted ∧ t.exitStatus = some 0 ∧
        ∀ u, step t ≠ .next u) ∧
    (∀ i t, exec i s = .next t → s.halted = false → t.halted = true → i = .hlt) ∧
    encode .hlt = [0x01#8] ∧ CommonFetchFaults

/-- LDI writes its immediate to its register, any register, and changes nothing else (R111). -/
def Obligations.LdiLoadsImmediate : Prop :=
  ∀ (a imm : Byte) (s : State),
    (∀ ha : a.toNat < 8, s.pc.toNat ≤ 253 →
      ∃ t, exec (.ldi a imm) s = .next t ∧ (∀ q : RegIndex, t.readReg q = if q = ⟨a.toNat, ha⟩ then imm else s.readReg q) ∧
        t.pc.toNat = s.pc.toNat + 3 ∧ t.flags = s.flags ∧ t.halted = s.halted ∧ t.mem = s.mem ∧ t.fault = s.fault ∧ t.out = s.out) ∧
    (8 ≤ a.toNat → exec (.ldi a imm) s = .next (s.Faulted (.outOfRangeRegister a))) ∧
    encode (.ldi a imm) = [0x82#8, a, imm] ∧ CommonFetchFaults

/-- PRN appends its register's value to the output and changes nothing else (R112). -/
def Obligations.PrnEmitsRegister : Prop :=
  ∀ (a : Byte) (s : State),
    (∀ ha : a.toNat < 8, s.pc.toNat ≤ 254 →
      ∃ t, exec (.prn a) s = .next t ∧ t.out = s.out ++ [s.readReg ⟨a.toNat, ha⟩] ∧ t.pc.toNat = s.pc.toNat + 2 ∧
        t.regs = s.regs ∧ t.flags = s.flags ∧ t.halted = s.halted ∧ t.mem = s.mem ∧ t.fault = s.fault) ∧
    (8 ≤ a.toNat → exec (.prn a) s = .next (s.Faulted (.outOfRangeRegister a))) ∧
    encode (.prn a) = [0x47#8, a] ∧ CommonFetchFaults

/-- MUL writes the product mod 256 to its first register and changes nothing else (R121). -/
def Obligations.MulMultipliesMod256 : Prop :=
  ∀ (a b : Byte) (s : State),
    (∀ (ha : a.toNat < 8) (hb : b.toNat < 8), s.pc.toNat ≤ 253 →
      ∃ t, exec (.mul a b) s = .next t ∧ (∀ q : RegIndex, (t.readReg q).toNat =
          if q = ⟨a.toNat, ha⟩ then ((s.readReg ⟨a.toNat, ha⟩).toNat * (s.readReg ⟨b.toNat, hb⟩).toNat) % 256 else (s.readReg q).toNat) ∧
        t.pc.toNat = s.pc.toNat + 3 ∧ t.flags = s.flags ∧ t.halted = s.halted ∧ t.mem = s.mem ∧ t.fault = s.fault ∧ t.out = s.out) ∧
    (8 ≤ a.toNat → exec (.mul a b) s = .next (s.Faulted (.outOfRangeRegister a))) ∧
    (a.toNat < 8 → 8 ≤ b.toNat → exec (.mul a b) s = .next (s.Faulted (.outOfRangeRegister b))) ∧
    encode (.mul a b) = [0xA2#8, a, b] ∧ CommonFetchFaults

/-- ADD writes the sum mod 256 to its first register and changes nothing else (R122). -/
def Obligations.AddAddsMod256 : Prop :=
  ∀ (a b : Byte) (s : State),
    (∀ (ha : a.toNat < 8) (hb : b.toNat < 8), s.pc.toNat ≤ 253 →
      ∃ t, exec (.add a b) s = .next t ∧ (∀ q : RegIndex, (t.readReg q).toNat =
          if q = ⟨a.toNat, ha⟩ then ((s.readReg ⟨a.toNat, ha⟩).toNat + (s.readReg ⟨b.toNat, hb⟩).toNat) % 256 else (s.readReg q).toNat) ∧
        t.pc.toNat = s.pc.toNat + 3 ∧ t.flags = s.flags ∧ t.halted = s.halted ∧ t.mem = s.mem ∧ t.fault = s.fault ∧ t.out = s.out) ∧
    (8 ≤ a.toNat → exec (.add a b) s = .next (s.Faulted (.outOfRangeRegister a))) ∧
    (a.toNat < 8 → 8 ≤ b.toNat → exec (.add a b) s = .next (s.Faulted (.outOfRangeRegister b))) ∧
    encode (.add a b) = [0xA0#8, a, b] ∧ CommonFetchFaults

/-- CMP sets exactly one of the flags by the unsigned order and changes nothing else (R123). -/
def Obligations.CmpSetsExactlyOneFlag : Prop :=
  ∀ (a b : Byte) (s : State),
    (∀ (ha : a.toNat < 8) (hb : b.toNat < 8), s.pc.toNat ≤ 253 →
      ∃ t, exec (.cmp a b) s = .next t ∧ (t.flags.e = true ↔ s.readReg ⟨a.toNat, ha⟩ = s.readReg ⟨b.toNat, hb⟩) ∧
        (t.flags.g = true ↔ (s.readReg ⟨b.toNat, hb⟩).toNat < (s.readReg ⟨a.toNat, ha⟩).toNat) ∧
        (t.flags.l = true ↔ (s.readReg ⟨a.toNat, ha⟩).toNat < (s.readReg ⟨b.toNat, hb⟩).toNat) ∧
        t.flags.l.toNat + t.flags.g.toNat + t.flags.e.toNat = 1 ∧ t.pc.toNat = s.pc.toNat + 3 ∧
        t.regs = s.regs ∧ t.halted = s.halted ∧ t.mem = s.mem ∧ t.fault = s.fault ∧ t.out = s.out) ∧
    (8 ≤ a.toNat → exec (.cmp a b) s = .next (s.Faulted (.outOfRangeRegister a))) ∧
    (a.toNat < 8 → 8 ≤ b.toNat → exec (.cmp a b) s = .next (s.Faulted (.outOfRangeRegister b))) ∧
    encode (.cmp a b) = [0xA7#8, a, b] ∧ CommonFetchFaults

/-- PUSH decrements SP and stores the register, read after the decrement, at the new SP (R142). Rests on the spec's
decisions D6 and D17. -/
def Obligations.PushStoresBelowStackPointer : Prop :=
  ∀ (a : Byte) (s : State),
    (∀ ha : a.toNat < 8, s.sp ≠ 0x00#8 → s.pc.toNat ≤ 254 →
      ∃ t, exec (.push a) s = .next t ∧ (∀ q : RegIndex, t.readReg q = if q = 7 then s.sp - 1#8 else s.readReg q) ∧ t.stackSlot + 1 = s.stackSlot ∧
        (s.mem.wf = true → ∀ b, t.mem.read b = if b = t.stackSlot then t.readReg ⟨a.toNat, ha⟩ else s.mem.read b) ∧
        t.pc.toNat = s.pc.toNat + 2 ∧ t.flags = s.flags ∧ t.halted = s.halted ∧ t.fault = s.fault ∧ t.out = s.out) ∧
    (8 ≤ a.toNat → exec (.push a) s = .next (s.Faulted (.outOfRangeRegister a))) ∧
    (a.toNat < 8 → s.sp = 0x00#8 → exec (.push a) s = .next (s.Faulted (.stackOverflow 0x00#8))) ∧
    encode (.push a) = [0x45#8, a] ∧ CommonFetchFaults

/-- POP writes the byte at SP to its register, then increments SP, which for R7 is the popped byte (R143). Rests on
the spec's decisions D7 and D17. -/
def Obligations.PopLoadsFromStackPointer : Prop :=
  ∀ (a : Byte) (s : State),
    (∀ ha : a.toNat < 8, (if a = 7#8 then s.mem.read s.stackSlot else s.sp) ≠ 0xFF#8 → s.pc.toNat ≤ 254 →
      ∃ t, exec (.pop a) s = .next t ∧ (∀ q : RegIndex, t.readReg q =
          if q = 7 then (if a = 7#8 then s.mem.read s.stackSlot else s.sp) + 1#8
          else if q = ⟨a.toNat, ha⟩ then s.mem.read s.stackSlot else s.readReg q) ∧
        t.sp.toNat = (if a = 7#8 then s.mem.read s.stackSlot else s.sp).toNat + 1 ∧ t.pc.toNat = s.pc.toNat + 2 ∧ t.flags = s.flags ∧ t.halted = s.halted ∧ t.mem = s.mem ∧ t.fault = s.fault ∧ t.out = s.out) ∧
    (8 ≤ a.toNat → exec (.pop a) s = .next (s.Faulted (.outOfRangeRegister a))) ∧
    (a.toNat < 8 → (if a = 7#8 then s.mem.read s.stackSlot else s.sp) = 0xFF#8 →
      exec (.pop a) s = .next (s.Faulted (.stackUnderflow 0xFF#8))) ∧
    encode (.pop a) = [0x46#8, a] ∧ CommonFetchFaults

/-- CALL pushes pc + 2 and goes to the address in its register, read after the push (R150). Rests on the spec's
decisions D6, D17 and, for pc = 254, D18. -/
def Obligations.CallPushesReturnAddress : Prop :=
  ∀ (a : Byte) (s : State),
    (∀ ha : a.toNat < 8, s.sp ≠ 0x00#8 → s.pc.toNat ≤ 253 →
      ∃ t, exec (.call a) s = .next t ∧ (∀ q : RegIndex, t.readReg q = if q = 7 then s.sp - 1#8 else s.readReg q) ∧ t.stackSlot + 1 = s.stackSlot ∧
        (s.mem.wf = true → (t.mem.read t.stackSlot).toNat = s.pc.toNat + 2 ∧ ∀ b, b ≠ t.stackSlot → t.mem.read b = s.mem.read b) ∧
        t.pc.toNat = (t.readReg ⟨a.toNat, ha⟩).toNat ∧ t.flags = s.flags ∧ t.halted = s.halted ∧ t.fault = s.fault ∧ t.out = s.out) ∧
    (8 ≤ a.toNat → exec (.call a) s = .next (s.Faulted (.outOfRangeRegister a))) ∧
    (a.toNat < 8 → s.pc.toNat ≤ 253 → s.sp = 0x00#8 → exec (.call a) s = .next (s.Faulted (.stackOverflow 0x00#8))) ∧
    (a.toNat < 8 → s.pc.toNat = 254 → exec (.call a) s = .next (s.Faulted (.outOfRangeMemory 256))) ∧
    encode (.call a) = [0x50#8, a] ∧ CommonFetchFaults

/-- RET sets pc to the byte at SP and increments SP once (R151). Rests on the spec's decision D7. -/
def Obligations.RetPopsIntoPc : Prop :=
  ∀ s : State,
    (s.sp ≠ 0xFF#8 →
      ∃ t, exec .ret s = .next t ∧ t.pc.toNat = (s.mem.read s.stackSlot).toNat ∧
        (∀ q : RegIndex, t.readReg q = if q = 7 then s.sp + 1#8 else s.readReg q) ∧ t.sp.toNat = s.sp.toNat + 1 ∧ t.flags = s.flags ∧ t.halted = s.halted ∧ t.mem = s.mem ∧ t.fault = s.fault ∧ t.out = s.out) ∧
    (s.sp = 0xFF#8 → exec .ret s = .next (s.Faulted (.stackUnderflow 0xFF#8))) ∧
    encode .ret = [0x11#8] ∧ CommonFetchFaults

/-- JMP sets pc to its register's value and changes nothing else (R152). -/
def Obligations.JmpGoesToRegister : Prop :=
  ∀ (a : Byte) (s : State),
    (∀ ha : a.toNat < 8,
      ∃ t, exec (.jmp a) s = .next t ∧ t.pc.toNat = (s.readReg ⟨a.toNat, ha⟩).toNat ∧ t.regs = s.regs ∧ t.flags = s.flags ∧ t.halted = s.halted ∧ t.mem = s.mem ∧ t.fault = s.fault ∧ t.out = s.out) ∧
    (8 ≤ a.toNat → exec (.jmp a) s = .next (s.Faulted (.outOfRangeRegister a))) ∧
    encode (.jmp a) = [0x54#8, a] ∧ CommonFetchFaults

/-- JEQ jumps to its register's value iff E is set, else goes on at pc + 2 (R153). -/
def Obligations.JeqJumpsWhenEqual : Prop :=
  ∀ (a : Byte) (s : State),
    (∀ ha : a.toNat < 8, s.pc.toNat ≤ 254 →
      ∃ t, exec (.jeq a) s = .next t ∧ t.pc.toNat = (if s.flags.e = true then (s.readReg ⟨a.toNat, ha⟩).toNat else s.pc.toNat + 2) ∧ t.regs = s.regs ∧ t.flags = s.flags ∧ t.halted = s.halted ∧ t.mem = s.mem ∧ t.fault = s.fault ∧ t.out = s.out) ∧
    (8 ≤ a.toNat → exec (.jeq a) s = .next (s.Faulted (.outOfRangeRegister a))) ∧
    encode (.jeq a) = [0x55#8, a] ∧ CommonFetchFaults

/-- JNE jumps to its register's value iff E is clear, else goes on at pc + 2 (R154). -/
def Obligations.JneJumpsWhenNotEqual : Prop :=
  ∀ (a : Byte) (s : State),
    (∀ ha : a.toNat < 8, s.pc.toNat ≤ 254 →
      ∃ t, exec (.jne a) s = .next t ∧ t.pc.toNat = (if s.flags.e = false then (s.readReg ⟨a.toNat, ha⟩).toNat else s.pc.toNat + 2) ∧ t.regs = s.regs ∧ t.flags = s.flags ∧ t.halted = s.halted ∧ t.mem = s.mem ∧ t.fault = s.fault ∧ t.out = s.out) ∧
    (8 ≤ a.toNat → exec (.jne a) s = .next (s.Faulted (.outOfRangeRegister a))) ∧
    encode (.jne a) = [0x56#8, a] ∧ CommonFetchFaults

/-- The ALU has the operations ADD, MUL and CMP and touches nothing but its result (42_alu.md section 1). -/
def Obligations.AluAppliesOnlyItsOperations : Prop :=
  ∀ (op : Opcode) (ra rb : RegIndex) (s : State),
    (op ∉ [Opcode.add, Opcode.mul, Opcode.cmp] → s.aluApply op ra rb = .error .unsupportedALUOperation) ∧
    (op ∈ [Opcode.add, Opcode.mul, Opcode.cmp] →
      ∃ t, s.aluApply op ra rb = .ok t ∧ t.mem = s.mem ∧ t.pc = s.pc ∧ t.halted = s.halted ∧ t.fault = s.fault ∧ t.out = s.out ∧
        (op ≠ .cmp → t.flags = s.flags ∧ ∀ q, q ≠ ra → t.readReg q = s.readReg q) ∧ (op = .cmp → t.regs = s.regs))

/-- ADD and MUL wrap mod 256 silently, commute, and agree with two's complement on the low 8 bits (R124). -/
def Obligations.ArithmeticAgreesWithSignedReading : Prop :=
  ∀ (a b : Byte) (ha : a.toNat < 8) (hb : b.toNat < 8) (s : State), s.pc.toNat ≤ 253 →
    ∃ t t' u u', exec (.add a b) s = .next t ∧ exec (.add b a) s = .next t' ∧
      exec (.mul a b) s = .next u ∧ exec (.mul b a) s = .next u' ∧
      (t.readReg ⟨a.toNat, ha⟩).toNat = ((s.readReg ⟨a.toNat, ha⟩).toNat + (s.readReg ⟨b.toNat, hb⟩).toNat) % 256 ∧
      (u.readReg ⟨a.toNat, ha⟩).toNat = ((s.readReg ⟨a.toNat, ha⟩).toNat * (s.readReg ⟨b.toNat, hb⟩).toNat) % 256 ∧
      t'.readReg ⟨b.toNat, hb⟩ = t.readReg ⟨a.toNat, ha⟩ ∧ u'.readReg ⟨b.toNat, hb⟩ = u.readReg ⟨a.toNat, ha⟩ ∧
      (t.readReg ⟨a.toNat, ha⟩).toInt = ((s.readReg ⟨a.toNat, ha⟩).toInt + (s.readReg ⟨b.toNat, hb⟩).toInt).bmod 256 ∧
      (u.readReg ⟨a.toNat, ha⟩).toInt = ((s.readReg ⟨a.toNat, ha⟩).toInt * (s.readReg ⟨b.toNat, hb⟩).toInt).bmod 256 ∧
      t.flags = s.flags ∧ u.flags = s.flags ∧ t.fault = s.fault ∧ u.fault = s.fault

/-- After CMP exactly one flag is set, and JEQ and JNE branch consistently with equality (R126). -/
def Obligations.CompareThenConditionalJump : Prop :=
  ∀ (a b c : Byte) (ha : a.toNat < 8) (hb : b.toNat < 8) (hc : c.toNat < 8) (s : State), s.pc.toNat ≤ 251 →
    ∃ t u v, exec (.cmp a b) s = .next t ∧ exec (.jeq c) t = .next u ∧ exec (.jne c) t = .next v ∧
      t.flags.l.toNat + t.flags.g.toNat + t.flags.e.toNat = 1 ∧
      (t.flags.e = true ↔ s.readReg ⟨a.toNat, ha⟩ = s.readReg ⟨b.toNat, hb⟩) ∧
      (t.flags.g = true ↔ (s.readReg ⟨a.toNat, ha⟩).toNat > (s.readReg ⟨b.toNat, hb⟩).toNat) ∧
      (t.flags.l = true ↔ (s.readReg ⟨a.toNat, ha⟩).toNat < (s.readReg ⟨b.toNat, hb⟩).toNat) ∧
      u.pc.toNat = (if s.readReg ⟨a.toNat, ha⟩ = s.readReg ⟨b.toNat, hb⟩ then (s.readReg ⟨c.toNat, hc⟩).toNat else s.pc.toNat + 5) ∧
      v.pc.toNat = (if s.readReg ⟨a.toNat, ha⟩ = s.readReg ⟨b.toNat, hb⟩ then s.pc.toNat + 5 else (s.readReg ⟨c.toNat, hc⟩).toNat)

/-- PUSH followed by POP into the same register restores every register and the stack pointer (43_stack.md section 2
(the property for all eight registers is an inference the spec marks as derived)). -/
def Obligations.PushThenPopRestores : Prop :=
  ∀ (a : Byte) (ha : a.toNat < 8) (s : State), s.sp ≠ 0x00#8 → s.pc.toNat ≤ 252 → s.mem.wf = true →
    ∃ t u, exec (.push a) s = .next t ∧ exec (.pop a) t = .next u ∧ u.regs = s.regs ∧ u.pc.toNat = s.pc.toNat + 4 ∧
      u.flags = s.flags ∧ u.halted = s.halted ∧ u.fault = s.fault ∧ u.out = s.out ∧
      u.mem.read t.stackSlot = t.readReg ⟨a.toNat, ha⟩ ∧ ∀ b, b ≠ t.stackSlot → u.mem.read b = s.mem.read b

/-- A matching RET returns to the address after the CALL and restores the stack pointer (44_control_transfer.md
sections 1 and 2). -/
def Obligations.MatchingRetReturns : Prop :=
  ∀ (a : Byte) (s t u : State), s.mem.wf = true → s.fault = none → exec (.call a) s = .next t → t.fault = none →
    u.sp = t.sp → u.mem.read u.stackSlot = t.mem.read t.stackSlot →
    ∃ v, exec .ret u = .next v ∧ v.pc.toNat = s.pc.toNat + 2 ∧ v.sp = s.sp ∧ v.mem = u.mem ∧
      ∀ q : RegIndex, q ≠ 7 → v.readReg q = u.readReg q

/-- After a completed step pc is the end of the instruction or a byte taken from a register or the stack (10_state.md
section 3, 44_control_transfer.md sections 1 and 2). -/
def Obligations.ControlTargetsAreBytes : Prop :=
  ∀ (p : FetchPolicy) (s t : State), stepWith p s = .next t → t.fault = none →
    ∃ i, s.fetch p = .ok i ∧
      match i with
      | .call a | .jmp a => t.pc.toNat ≤ 255 ∧ ∃ ha : a.toNat < 8, t.pc.toNat = (t.readReg ⟨a.toNat, ha⟩).toNat
      | .ret => t.pc.toNat ≤ 255 ∧ t.pc.toNat = (s.mem.read s.stackSlot).toNat
      | .jeq a => (s.flags.e = true → t.pc.toNat ≤ 255 ∧ ∃ ha : a.toNat < 8, t.pc.toNat = (t.readReg ⟨a.toNat, ha⟩).toNat) ∧
          (s.flags.e = false → t.pc.toNat = s.pc.toNat + i.length ∧ t.pc.toNat ≤ 256)
      | .jne a => (s.flags.e = false → t.pc.toNat ≤ 255 ∧ ∃ ha : a.toNat < 8, t.pc.toNat = (t.readReg ⟨a.toNat, ha⟩).toNat) ∧
          (s.flags.e = true → t.pc.toNat = s.pc.toNat + i.length ∧ t.pc.toNat ≤ 256)
      | .hlt | .ldi _ _ | .prn _ | .mul _ _ | .add _ _ | .cmp _ _ | .push _ | .pop _ =>
          t.pc.toNat = s.pc.toNat + i.length ∧ t.pc.toNat ≤ 256

/-- The exit status is 0 after HLT, 1 for an unrecognized opcode, nonzero for every other fault (60_exceptions.md
section 6). -/
def Obligations.HostExitStatus : Prop :=
  (∀ s : State, s.Running → s.exitStatus = none) ∧ (∀ s : State, s.halted = true → s.exitStatus = some 0) ∧
  ∃ n : Nat, n ≠ 0 ∧ ∀ (s : State) (r : FaultRecord), s.halted = false → s.fault = some r →
    s.exitStatus = some (match r.cause with | .unrecognizedOpcode _ => 1 | _ => n)

/-- The packed flags byte is 0b00000LGE (10_state.md section 4 (decision D12, general knowledge in the spec)). -/
def Obligations.PackedFlagsLayout : Prop :=
  ∀ f : Flags, f.packed.getLsbD 2 = f.l ∧ f.packed.getLsbD 1 = f.g ∧ f.packed.getLsbD 0 = f.e ∧
    ∀ k, 3 ≤ k → k < 8 → f.packed.getLsbD k = false
end

