-- ==== Sys2Proof/Laws/Decode.lean ====
section
/-!
SUPPORT. The opcode map read in both directions (30_encoding.md R72, R75).
-/

namespace Sys2Proof

/-- No two rows share an opcode byte, so the whole-byte match finds each row by its byte. -/
@[simp] theorem Opcode.ofByte_byte (o : Opcode) : Opcode.ofByte o.byte = some o := by
  cases o <;> decide

/-- The row a byte selects has that byte. -/
theorem Opcode.byte_of_ofByte {b : Byte} {o : Opcode} (h : Opcode.ofByte b = some o) : o.byte = b := by
  simpa using List.find?_some h

theorem Opcode.ofByte_eq_some_iff {b : Byte} {o : Opcode} : Opcode.ofByte b = some o ↔ o.byte = b :=
  ⟨Opcode.byte_of_ofByte, fun h => h ▸ Opcode.ofByte_byte o⟩

/-- The assembled instruction belongs to the row it was assembled from. -/
@[simp] theorem Opcode.assemble_opcode (o : Opcode) (opa opb : Byte) : (o.assemble opa opb).opcode = o := by
  cases o <;> rfl

/-- `opcode[7:6]` equals the operand count for every row (R73). -/
theorem Opcode.length_eq_top_bits (o : Opcode) : o.length = 1 + (o.byte.extractLsb 7 6).toNat := by
  cases o <;> decide

/-- Decoding three fetched bytes gives an instruction of the row the first byte selects. -/
theorem decodeBytes_eq_some_iff {ir opa opb : Byte} {i : Instr} :
    decodeBytes ir opa opb = some i ↔ ∃ o, Opcode.ofByte ir = some o ∧ o.assemble opa opb = i := by
  simp [decodeBytes]

theorem decodeBytes_eq_none_iff {ir opa opb : Byte} : decodeBytes ir opa opb = none ↔ Opcode.ofByte ir = none := by
  simp [decodeBytes]

end Sys2Proof
end

