-- ==== Sys2Proof/Laws/Memory.lean ====
section
/-!
SUPPORT. The laws of memory: reading after writing, the canonical form kept by every write, and equal reads making equal
memories (20_memory.md R51, R58).
-/

namespace Sys2Proof.Machine

theorem Memory.read_nil (a : Nat) : Memory.read [] a = Memory.unlisted := rfl

theorem Memory.wfFrom_cons {lo k : Nat} {v : Byte} {m : Memory} :
    Memory.wfFrom lo ((k, v) :: m) = true ↔
      lo ≤ k ∧ k < 256 ∧ v ≠ Memory.unlisted ∧ Memory.wfFrom (k + 1) m = true := by
  simp [Memory.wfFrom, and_assoc]

theorem Memory.wfFrom_mono {lo lo' : Nat} (h : lo' ≤ lo) {m : Memory} (hm : Memory.wfFrom lo m = true) :
    Memory.wfFrom lo' m = true := by
  cases m with
  | nil => rfl
  | cons c m =>
    obtain ⟨k, v⟩ := c
    rw [Memory.wfFrom_cons] at hm ⊢
    exact ⟨h.trans hm.1, hm.2⟩

/-- Below the first listed address every cell reads as unlisted. -/
theorem Memory.read_of_lt {lo : Nat} {m : Memory} (hm : Memory.wfFrom lo m = true) {a : Nat} (ha : a < lo) :
    m.read a = Memory.unlisted := by
  induction m generalizing lo with
  | nil => rfl
  | cons c m ih =>
    obtain ⟨k, v⟩ := c
    rw [Memory.wfFrom_cons] at hm
    have hk : a ≠ k := by omega
    simp only [Memory.read, hk, if_false]
    exact ih hm.2.2.2 (by omega)

/-- Outside the 256 cells nothing is listed. -/
theorem Memory.read_of_ge {lo : Nat} {m : Memory} (hm : Memory.wfFrom lo m = true) {a : Nat} (ha : 256 ≤ a) :
    m.read a = Memory.unlisted := by
  induction m generalizing lo with
  | nil => rfl
  | cons c m ih =>
    obtain ⟨k, v⟩ := c
    rw [Memory.wfFrom_cons] at hm
    have hk : a ≠ k := by omega
    simp only [Memory.read, hk, if_false]
    exact ih hm.2.2.2

/-- A write keeps the canonical form. -/
theorem Memory.wfFrom_write {lo : Nat} {m : Memory} (hm : Memory.wfFrom lo m = true) {a : Nat} (hlo : lo ≤ a)
    (ha : a < 256) (v : Byte) : Memory.wfFrom lo (m.write a v) = true := by
  induction m generalizing lo with
  | nil =>
    unfold Memory.write
    split <;> simp_all [Memory.wfFrom]
  | cons c m ih =>
    obtain ⟨k, w⟩ := c
    have hm' := hm
    rw [Memory.wfFrom_cons] at hm
    obtain ⟨h1, h2, h3, h4⟩ := hm
    simp only [Memory.write]
    split
    · split
      · exact hm'
      · next hak hv =>
        rw [Memory.wfFrom_cons, Memory.wfFrom_cons]
        exact ⟨hlo, ha, hv, by omega, h2, h3, h4⟩
    · split
      · next hak =>
        split
        · exact Memory.wfFrom_mono (by omega) h4
        · next hv => subst hak; exact Memory.wfFrom_cons.2 ⟨h1, h2, hv, h4⟩
      · exact Memory.wfFrom_cons.2 ⟨h1, h2, h3, ih h4 (by omega)⟩

theorem Memory.wf_write {m : Memory} (hm : m.wf = true) {a : Nat} (ha : a < 256) (v : Byte) :
    Memory.wf (m.write a v) = true :=
  Memory.wfFrom_write hm (Nat.zero_le a) ha v

/-- In canonical form a read gives the last byte written there, and every other cell is as before. -/
theorem Memory.read_write_from {lo : Nat} {m : Memory} (hm : Memory.wfFrom lo m = true) (a b : Nat) (v : Byte) :
    (m.write a v).read b = if b = a then v else m.read b := by
  induction m generalizing lo with
  | nil =>
    simp only [Memory.write]
    split <;> rename_i hv
    · subst hv; split <;> rfl
    · rfl
  | cons c m ih =>
    obtain ⟨k, w⟩ := c
    have hm' := hm
    rw [Memory.wfFrom_cons] at hm
    obtain ⟨-, -, -, h4⟩ := hm
    simp only [Memory.write]
    split
    · next hak =>
      split
      · next hv =>
        split
        · next hba =>
          have : Memory.wfFrom k ((k, w) :: m) = true := by
            rw [Memory.wfFrom_cons] at hm' ⊢; exact ⟨le_rfl, hm'.2⟩
          rw [Memory.read_of_lt this (by omega), hv]
        · rfl
      · rfl
    · split
      · next hak =>
        subst hak
        split
        · next hv =>
          by_cases hb : b = a
          · subst hb
            rw [if_pos rfl, Memory.read_of_lt h4 (by omega), hv]
          · simp [Memory.read, hb]
        · by_cases hb : b = a <;> simp [Memory.read, hb]
      · next hlt hne =>
        simp only [Memory.read]
        split
        · next hbk => rw [if_neg (by omega)]
        · exact ih h4

theorem Memory.read_write {m : Memory} (hm : m.wf = true) (a b : Nat) (v : Byte) :
    (m.write a v).read b = if b = a then v else m.read b :=
  Memory.read_write_from hm a b v

/-- A read gives the byte just written, in canonical form or not. -/
theorem Memory.read_write_same (m : Memory) (a : Nat) (v : Byte) (hm : m.wf = true) : (m.write a v).read a = v := by
  simp [Memory.read_write hm]

theorem Memory.read_write_ne {m : Memory} (hm : m.wf = true) {a b : Nat} (h : b ≠ a) (v : Byte) :
    (m.write a v).read b = m.read b := by
  simp [Memory.read_write hm, h]

/-- Canonical memories that read alike from some address on are equal. -/
theorem Memory.ext_from {lo : Nat} {m n : Memory} (hm : Memory.wfFrom lo m = true) (hn : Memory.wfFrom lo n = true)
    (h : ∀ a, m.read a = n.read a) : m = n := by
  induction m generalizing lo n with
  | nil =>
    cases n with
    | nil => rfl
    | cons d n =>
      obtain ⟨k, w⟩ := d
      rw [Memory.wfFrom_cons] at hn
      have := h k
      simp only [Memory.read, if_true] at this
      exact absurd this.symm hn.2.2.1
  | cons c m ih =>
    obtain ⟨j, v⟩ := c
    cases n with
    | nil =>
      rw [Memory.wfFrom_cons] at hm
      have := h j
      simp only [Memory.read, if_true] at this
      exact absurd this hm.2.2.1
    | cons d n =>
      obtain ⟨k, w⟩ := d
      have hm' := Memory.wfFrom_cons.1 hm
      have hn' := Memory.wfFrom_cons.1 hn
      have hjk : j = k := by
        rcases Nat.lt_trichotomy j k with hlt | heq | hgt
        · have hr := h j
          have hw : Memory.wfFrom k ((k, w) :: n) = true := Memory.wfFrom_cons.2 ⟨le_rfl, hn'.2⟩
          rw [Memory.read_of_lt hw hlt] at hr
          simp only [Memory.read, if_true] at hr
          exact absurd hr hm'.2.2.1
        · exact heq
        · have hr := h k
          have hw : Memory.wfFrom j ((j, v) :: m) = true := Memory.wfFrom_cons.2 ⟨le_rfl, hm'.2⟩
          rw [Memory.read_of_lt hw hgt] at hr
          simp only [Memory.read, if_true] at hr
          exact absurd hr.symm hn'.2.2.1
      subst hjk
      have hvw : v = w := by simpa [Memory.read] using h j
      subst hvw
      have hmn : m = n := by
        refine ih hm'.2.2.2 hn'.2.2.2 fun a => ?_
        by_cases ha : a = j
        · subst ha
          rw [Memory.read_of_lt hm'.2.2.2 (by omega), Memory.read_of_lt hn'.2.2.2 (by omega)]
        · simpa [Memory.read, ha] using h a
      rw [hmn]

/-- Canonical memories that read alike are equal lists. -/
theorem Memory.ext {m n : Memory} (hm : m.wf = true) (hn : n.wf = true) (h : ∀ a, m.read a = n.read a) : m = n :=
  Memory.ext_from hm hn h

/-- Reset memory has the canonical form. -/
theorem State.reset_mem_wf : State.reset.mem.wf = true := rfl

end Sys2Proof.Machine
end

