-- ==== Sys2Proof/Laws/State.lean ====
section
/-!
SUPPORT. One lemma per field per state update, and what each update does to reading a register, so that no later proof
unfolds a record update.
-/

namespace Sys2Proof.Machine

/-! ### `State.writeReg` -/

@[simp] theorem State.writeReg_regs (s : State) (r : RegIndex) (v : Byte) : (s.writeReg r v).regs = s.regs.set r v := rfl
@[simp] theorem State.writeReg_pc (s : State) (r : RegIndex) (v : Byte) : (s.writeReg r v).pc = s.pc := rfl
@[simp] theorem State.writeReg_flags (s : State) (r : RegIndex) (v : Byte) : (s.writeReg r v).flags = s.flags := rfl
@[simp] theorem State.writeReg_halted (s : State) (r : RegIndex) (v : Byte) : (s.writeReg r v).halted = s.halted := rfl
@[simp] theorem State.writeReg_mem (s : State) (r : RegIndex) (v : Byte) : (s.writeReg r v).mem = s.mem := rfl
@[simp] theorem State.writeReg_fault (s : State) (r : RegIndex) (v : Byte) : (s.writeReg r v).fault = s.fault := rfl
@[simp] theorem State.writeReg_out (s : State) (r : RegIndex) (v : Byte) : (s.writeReg r v).out = s.out := rfl

/-! ### `State.setMem` -/

@[simp] theorem State.setMem_regs (s : State) (m : Memory) : (s.setMem m).regs = s.regs := rfl
@[simp] theorem State.setMem_pc (s : State) (m : Memory) : (s.setMem m).pc = s.pc := rfl
@[simp] theorem State.setMem_flags (s : State) (m : Memory) : (s.setMem m).flags = s.flags := rfl
@[simp] theorem State.setMem_halted (s : State) (m : Memory) : (s.setMem m).halted = s.halted := rfl
@[simp] theorem State.setMem_mem (s : State) (m : Memory) : (s.setMem m).mem = m := rfl
@[simp] theorem State.setMem_fault (s : State) (m : Memory) : (s.setMem m).fault = s.fault := rfl
@[simp] theorem State.setMem_out (s : State) (m : Memory) : (s.setMem m).out = s.out := rfl
@[simp] theorem State.setMem_readReg (s : State) (m : Memory) (q : RegIndex) : (s.setMem m).readReg q = s.readReg q := rfl
@[simp] theorem State.setMem_sp (s : State) (m : Memory) : (s.setMem m).sp = s.sp := rfl

/-! ### `State.output` -/

@[simp] theorem State.output_regs (s : State) (v : Byte) : (s.output v).regs = s.regs := rfl
@[simp] theorem State.output_pc (s : State) (v : Byte) : (s.output v).pc = s.pc := rfl
@[simp] theorem State.output_flags (s : State) (v : Byte) : (s.output v).flags = s.flags := rfl
@[simp] theorem State.output_halted (s : State) (v : Byte) : (s.output v).halted = s.halted := rfl
@[simp] theorem State.output_mem (s : State) (v : Byte) : (s.output v).mem = s.mem := rfl
@[simp] theorem State.output_fault (s : State) (v : Byte) : (s.output v).fault = s.fault := rfl
@[simp] theorem State.output_out (s : State) (v : Byte) : (s.output v).out = s.out ++ [v] := rfl
@[simp] theorem State.output_readReg (s : State) (v : Byte) (q : RegIndex) : (s.output v).readReg q = s.readReg q := rfl
@[simp] theorem State.output_sp (s : State) (v : Byte) : (s.output v).sp = s.sp := rfl

/-! ### `State.advance` -/

@[simp] theorem State.advance_regs (s : State) (n : Nat) : (s.advance n).regs = s.regs := rfl
@[simp] theorem State.advance_pc (s : State) (n : Nat) : (s.advance n).pc = s.pc + BitVec.ofNat 9 n := rfl
@[simp] theorem State.advance_flags (s : State) (n : Nat) : (s.advance n).flags = s.flags := rfl
@[simp] theorem State.advance_halted (s : State) (n : Nat) : (s.advance n).halted = s.halted := rfl
@[simp] theorem State.advance_mem (s : State) (n : Nat) : (s.advance n).mem = s.mem := rfl
@[simp] theorem State.advance_fault (s : State) (n : Nat) : (s.advance n).fault = s.fault := rfl
@[simp] theorem State.advance_out (s : State) (n : Nat) : (s.advance n).out = s.out := rfl
@[simp] theorem State.advance_readReg (s : State) (n : Nat) (q : RegIndex) : (s.advance n).readReg q = s.readReg q := rfl
@[simp] theorem State.advance_sp (s : State) (n : Nat) : (s.advance n).sp = s.sp := rfl

/-! ### `State.jump` -/

@[simp] theorem State.jump_regs (s : State) (target : Byte) : (s.jump target).regs = s.regs := rfl
@[simp] theorem State.jump_pc (s : State) (target : Byte) : (s.jump target).pc = target.setWidth 9 := rfl
@[simp] theorem State.jump_flags (s : State) (target : Byte) : (s.jump target).flags = s.flags := rfl
@[simp] theorem State.jump_halted (s : State) (target : Byte) : (s.jump target).halted = s.halted := rfl
@[simp] theorem State.jump_mem (s : State) (target : Byte) : (s.jump target).mem = s.mem := rfl
@[simp] theorem State.jump_fault (s : State) (target : Byte) : (s.jump target).fault = s.fault := rfl
@[simp] theorem State.jump_out (s : State) (target : Byte) : (s.jump target).out = s.out := rfl
@[simp] theorem State.jump_readReg (s : State) (target : Byte) (q : RegIndex) : (s.jump target).readReg q = s.readReg q := rfl
@[simp] theorem State.jump_sp (s : State) (target : Byte) : (s.jump target).sp = s.sp := rfl

/-! ### `State.setFlags` -/

@[simp] theorem State.setFlags_regs (s : State) (f : Flags) : (s.setFlags f).regs = s.regs := rfl
@[simp] theorem State.setFlags_pc (s : State) (f : Flags) : (s.setFlags f).pc = s.pc := rfl
@[simp] theorem State.setFlags_flags (s : State) (f : Flags) : (s.setFlags f).flags = f := rfl
@[simp] theorem State.setFlags_halted (s : State) (f : Flags) : (s.setFlags f).halted = s.halted := rfl
@[simp] theorem State.setFlags_mem (s : State) (f : Flags) : (s.setFlags f).mem = s.mem := rfl
@[simp] theorem State.setFlags_fault (s : State) (f : Flags) : (s.setFlags f).fault = s.fault := rfl
@[simp] theorem State.setFlags_out (s : State) (f : Flags) : (s.setFlags f).out = s.out := rfl
@[simp] theorem State.setFlags_readReg (s : State) (f : Flags) (q : RegIndex) : (s.setFlags f).readReg q = s.readReg q := rfl
@[simp] theorem State.setFlags_sp (s : State) (f : Flags) : (s.setFlags f).sp = s.sp := rfl

/-! ### `State.halt` -/

@[simp] theorem State.halt_regs (s : State) : (s.halt).regs = s.regs := rfl
@[simp] theorem State.halt_pc (s : State) : (s.halt).pc = s.pc := rfl
@[simp] theorem State.halt_flags (s : State) : (s.halt).flags = s.flags := rfl
@[simp] theorem State.halt_halted (s : State) : (s.halt).halted = true := rfl
@[simp] theorem State.halt_mem (s : State) : (s.halt).mem = s.mem := rfl
@[simp] theorem State.halt_fault (s : State) : (s.halt).fault = s.fault := rfl
@[simp] theorem State.halt_out (s : State) : (s.halt).out = s.out := rfl
@[simp] theorem State.halt_readReg (s : State) (q : RegIndex) : (s.halt).readReg q = s.readReg q := rfl
@[simp] theorem State.halt_sp (s : State) : (s.halt).sp = s.sp := rfl

/-! ### `State.takeFault` -/

@[simp] theorem State.takeFault_regs (s : State) (c : FaultCause) : (s.takeFault c).regs = s.regs := rfl
@[simp] theorem State.takeFault_pc (s : State) (c : FaultCause) : (s.takeFault c).pc = s.pc := rfl
@[simp] theorem State.takeFault_flags (s : State) (c : FaultCause) : (s.takeFault c).flags = s.flags := rfl
@[simp] theorem State.takeFault_halted (s : State) (c : FaultCause) : (s.takeFault c).halted = s.halted := rfl
@[simp] theorem State.takeFault_mem (s : State) (c : FaultCause) : (s.takeFault c).mem = s.mem := rfl
@[simp] theorem State.takeFault_fault (s : State) (c : FaultCause) : (s.takeFault c).fault = some { cause := c, pc := s.pc } := rfl
@[simp] theorem State.takeFault_out (s : State) (c : FaultCause) : (s.takeFault c).out = s.out := rfl
@[simp] theorem State.takeFault_readReg (s : State) (c : FaultCause) (q : RegIndex) : (s.takeFault c).readReg q = s.readReg q := rfl
@[simp] theorem State.takeFault_sp (s : State) (c : FaultCause) : (s.takeFault c).sp = s.sp := rfl

/-! ### Reading registers -/

/-- A register reads the value written to it, and every other register as before. -/
theorem State.readReg_writeReg (s : State) (r q : RegIndex) (v : Byte) :
    (s.writeReg r v).readReg q = if q = r then v else s.readReg q := by
  simp only [State.readReg, State.writeReg, Fin.getElem_fin, Vector.getElem_set, Fin.ext_iff, eq_comm]

@[simp] theorem State.readReg_writeReg_same (s : State) (r : RegIndex) (v : Byte) :
    (s.writeReg r v).readReg r = v := by
  simp [State.readReg_writeReg]

@[simp] theorem State.readReg_writeReg_ne (s : State) {r q : RegIndex} (h : q ≠ r) (v : Byte) :
    (s.writeReg r v).readReg q = s.readReg q := by
  simp [State.readReg_writeReg, h]

/-- The stack pointer after a register write: register 7 is the stack pointer (10_state.md R22). -/
theorem State.sp_writeReg (s : State) (r : RegIndex) (v : Byte) :
    (s.writeReg r v).sp = if r = Config.spIndex then v else s.sp := by
  simp only [State.sp, State.readReg_writeReg, eq_comm]

/-- Two register files that read alike are equal. -/
theorem State.regs_ext {s t : State} (h : ∀ q : RegIndex, s.readReg q = t.readReg q) : s.regs = t.regs :=
  Vector.ext fun i hi => h ⟨i, hi⟩

end Sys2Proof.Machine
end

