-- ==== Sys2Proof/Laws/Ops.lean ====
section
/-!
SUPPORT. One lemma per shared operation that says everything it can do, for the meanings' proofs to cite instead of
unfolding it.
-/

namespace Sys2Proof.Machine

/-! ### Memory accesses -/

theorem State.memRead_of_lt (s : State) {a : Nat} (h : a < 256) : s.memRead a = .ok (s.mem.read a) := by
  simp [State.memRead, h]

theorem State.memRead_of_ge (s : State) {a : Nat} (h : 256 ≤ a) : s.memRead a = .error (.outOfRangeMemory a) := by
  simp [State.memRead, Nat.not_lt.2 h]

/-- A memory read gives the byte at an address that exists, or raises on one that does not. -/
theorem State.memRead_cases (s : State) (a : Nat) :
    (a < 256 ∧ s.memRead a = .ok (s.mem.read a)) ∨ (256 ≤ a ∧ s.memRead a = .error (.outOfRangeMemory a)) := by
  rcases Nat.lt_or_ge a 256 with h | h
  · exact .inl ⟨h, s.memRead_of_lt h⟩
  · exact .inr ⟨h, s.memRead_of_ge h⟩

theorem State.memWrite_of_lt (s : State) {a : Nat} (h : a < 256) (v : Byte) :
    s.memWrite a v = .ok (s.setMem (s.mem.write a v)) := by
  simp [State.memWrite, h]

theorem State.memWrite_of_ge (s : State) {a : Nat} (h : 256 ≤ a) (v : Byte) :
    s.memWrite a v = .error (.outOfRangeMemory a) := by
  simp [State.memWrite, Nat.not_lt.2 h]

/-! ### Operands -/

theorem regIndex_of_lt {b : Byte} (h : b.toNat < 8) : regIndex b = .ok ⟨b.toNat, h⟩ := by
  simp [regIndex, h]

theorem regIndex_of_ge {b : Byte} (h : 8 ≤ b.toNat) : regIndex b = .error (.outOfRangeRegister b) := by
  simp [regIndex, Nat.not_lt.2 h]

/-- A register operand byte names a register or raises with its own value. -/
theorem regIndex_cases (b : Byte) :
    (∃ h : b.toNat < 8, regIndex b = .ok ⟨b.toNat, h⟩) ∨ (8 ≤ b.toNat ∧ regIndex b = .error (.outOfRangeRegister b)) := by
  rcases Nat.lt_or_ge b.toNat 8 with h | h
  · exact .inl ⟨h, regIndex_of_lt h⟩
  · exact .inr ⟨h, regIndex_of_ge h⟩

theorem State.returnAddress_of_le (s : State) (h : s.pc.toNat ≤ 253) :
    s.returnAddress = .ok (BitVec.ofNat 8 (s.pc.toNat + 2)) := by
  simp [State.returnAddress, show s.pc.toNat + 2 < 256 by omega]

theorem State.returnAddress_of_ge (s : State) (h : 254 ≤ s.pc.toNat) :
    s.returnAddress = .error (.outOfRangeMemory (s.pc.toNat + 2)) := by
  simp [State.returnAddress, show ¬ s.pc.toNat + 2 < 256 by omega]

/-! ### The stack -/

theorem State.push_of_zero {s : State} (h : s.sp = 0#8) (f : State → Byte) :
    s.push f = .error (.stackOverflow 0#8) := by
  simp only [State.push, State.decSP, h, if_true]
  rfl

/-- A push that has room: the stack pointer goes down by one and the byte is stored there, computed from the state after
the decrement. -/
theorem State.push_of_ne {s : State} (h : s.sp ≠ 0#8) (f : State → Byte) :
    s.push f = .ok ((s.writeReg Config.spIndex (s.sp - 1#8)).setMem
      (s.mem.write (s.sp - 1#8).toNat (f (s.writeReg Config.spIndex (s.sp - 1#8))))) := by
  simp only [State.push, State.decSP, h, if_false]
  show State.memWrite _ _ _ = _
  rw [State.memWrite_of_lt]
  · simp only [State.stackSlot, State.sp, State.readReg_writeReg_same, State.writeReg_mem]
  · exact (State.sp _).isLt

theorem State.pop_of_max {s : State} {d : State → Byte → State}
    (h : (d s (s.mem.read s.sp.toNat)).sp = 0xFF#8) : s.pop d = .error (.stackUnderflow 0xFF#8) := by
  simp only [State.pop, State.stackSlot, s.memRead_of_lt s.sp.isLt]
  show State.incSP _ = _
  simp [State.incSP, h]

/-- A pop that succeeds: the byte at the stack pointer is delivered, and the stack pointer of the delivered state goes up
by one. -/
theorem State.pop_of_ne {s : State} {d : State → Byte → State}
    (h : (d s (s.mem.read s.sp.toNat)).sp ≠ 0xFF#8) :
    s.pop d = .ok ((d s (s.mem.read s.sp.toNat)).writeReg Config.spIndex ((d s (s.mem.read s.sp.toNat)).sp + 1#8)) := by
  simp only [State.pop, State.stackSlot, s.memRead_of_lt s.sp.isLt]
  show State.incSP _ = _
  simp [State.incSP, h]

/-! ### The ALU -/

/-- The ALU raises on every operation code but its own three. -/
theorem State.aluApply_unsupported (s : State) (op : Opcode) (h : op ≠ .add ∧ op ≠ .mul ∧ op ≠ .cmp) (ra rb : RegIndex) :
    s.aluApply op ra rb = .error .unsupportedALUOperation := by
  cases op <;> first | rfl | simp_all

/-! ### Completion -/

@[simp] theorem State.complete_ok (s t : State) : s.complete (.ok t) = .next t := rfl

@[simp] theorem State.complete_error (s : State) (c : FaultCause) : s.complete (.error c) = .next (s.takeFault c) := rfl

/-- An instruction ends in its completed state or in fault entry from the state it started in. -/
theorem State.complete_cases {s t : State} {r : Except FaultCause State} (h : s.complete r = .next t) :
    r = .ok t ∨ ∃ c, r = .error c ∧ t = s.takeFault c := by
  cases r with
  | ok u => exact .inl (by simpa using h)
  | error c => exact .inr ⟨c, rfl, by simpa using h.symm⟩

/-- Every instruction has a next state. -/
theorem State.complete_next (s : State) (r : Except FaultCause State) : ∃ t, s.complete r = .next t := by
  cases r <;> exact ⟨_, rfl⟩

end Sys2Proof.Machine
end

