-- ==== Sys2Proof/Laws/Step.lean ====
section
/-!
SUPPORT. What a step can do, said once: the run state decides whether there is one, the fetch decides what it runs.
-/

namespace Sys2Proof.Machine

theorem State.runState_eq_running_iff {s : State} : s.runState = .running ↔ s.Running := by
  unfold State.runState State.Running
  cases s.halted <;> cases s.fault <;> simp

/-- Fault entry is exactly the state written out as data. -/
theorem State.takeFault_eq (s : State) (c : FaultCause) : s.takeFault c = s.Faulted c := rfl

/-- Every instruction has a next state: no meaning stops. -/
theorem exec_next (i : Instr) (s : State) : ∃ t, exec i s = .next t := by
  cases i <;> simp only [exec, execHlt, execLdi, execPrn, execMul, execAdd, execPop, execCmp, execJmp, execJeq, execJne,
    execPush, execCall, execRet] <;> exact State.complete_next _ _

theorem stepWith_of_running {p : FetchPolicy} {s : State} (h : s.Running) :
    stepWith p s = match s.fetch p with
      | .error c => .next (s.takeFault c)
      | .ok i => exec i s := by
  cases hf : s.fetch p <;> simp [stepWith, State.runState_eq_running_iff.2 h, hf]

/-- Everything a step can do: it has a next state from a running state only, where the fetch raised and the fault was
taken, or the fetched instruction was executed. -/
theorem stepWith_cases {p : FetchPolicy} {s t : State} (h : stepWith p s = .next t) :
    s.Running ∧ ((∃ c, s.fetch p = .error c ∧ t = s.takeFault c) ∨ ∃ i, s.fetch p = .ok i ∧ exec i s = .next t) := by
  have hr : s.Running := by
    rw [← State.runState_eq_running_iff]
    unfold stepWith at h
    cases hs : s.runState <;> simp_all
  rw [stepWith_of_running hr] at h
  refine ⟨hr, ?_⟩
  cases hf : s.fetch p with
  | error c => exact .inl ⟨c, rfl, by simpa [hf] using h.symm⟩
  | ok i => exact .inr ⟨i, rfl, by simpa [hf] using h⟩

/-- The speculative fetch where its three addresses exist. -/
theorem State.fetchSpeculative_of_le {s : State} (h : s.pc.toNat ≤ 253) :
    s.fetchSpeculative =
      match decodeBytes (s.mem.read s.pc.toNat) (s.mem.read (s.pc.toNat + 1)) (s.mem.read (s.pc.toNat + 2)) with
      | none => .error (.unrecognizedOpcode (s.mem.read s.pc.toNat))
      | some i => .ok i := by
  simp only [State.fetchSpeculative, s.memRead_of_lt (show s.pc.toNat < 256 by omega),
    s.memRead_of_lt (show s.pc.toNat + 1 < 256 by omega), s.memRead_of_lt (show s.pc.toNat + 2 < 256 by omega)]
  rfl

/-- The speculative fetch where one of its addresses does not exist: the first such address is reported. -/
theorem State.fetchSpeculative_of_ge {s : State} (h : 254 ≤ s.pc.toNat) :
    s.fetchSpeculative = .error (.outOfRangeMemory (if 255 < s.pc.toNat then s.pc.toNat else 256)) := by
  unfold State.fetchSpeculative
  rcases s.memRead_cases s.pc.toNat with ⟨h0, e0⟩ | ⟨h0, e0⟩
  · rcases s.memRead_cases (s.pc.toNat + 1) with ⟨h1, e1⟩ | ⟨h1, e1⟩
    · have h2 : s.pc.toNat + 2 = 256 := by omega
      rw [e0, e1, s.memRead_of_ge (a := s.pc.toNat + 2) (by omega), if_neg (by omega), h2]
      rfl
    · have h2 : s.pc.toNat + 1 = 256 := by omega
      rw [e0, e1, if_neg (by omega), h2]
      rfl
  · rw [e0, if_pos (by omega)]
    rfl

/-! ### The lazy fetch -/

theorem except_bind_ok {α β : Type} (x : α) (f : α → Except FaultCause β) :
    ((Except.ok x : Except FaultCause α) >>= f) = f x := rfl

theorem except_bind_error {α β : Type} (c : FaultCause) (f : α → Except FaultCause β) :
    ((Except.error c : Except FaultCause α) >>= f) = .error c := rfl

/-- Lazy: an unrecognized opcode byte is met before any operand is fetched (R100). -/
theorem State.fetchLazy_unrecognized {s : State} (h : s.pc.toNat ≤ 255)
    (ho : Opcode.ofByte (s.mem.read s.pc.toNat) = none) :
    s.fetchLazy = .error (.unrecognizedOpcode (s.mem.read s.pc.toNat)) := by
  simp only [State.fetchLazy]
  rw [s.memRead_of_lt (show s.pc.toNat < 256 by omega), except_bind_ok, ho]

/-- Lazy: where the instruction's own bytes lie within memory it is decoded from them. -/
theorem State.fetchLazy_of_le {s : State} {o : Opcode} (ho : Opcode.ofByte (s.mem.read s.pc.toNat) = some o)
    (h : s.pc.toNat + o.length ≤ 256) :
    s.fetchLazy = .ok (o.assemble (s.mem.read (s.pc.toNat + 1)) (s.mem.read (s.pc.toNat + 2))) := by
  simp only [State.fetchLazy]
  rw [s.memRead_of_lt (show s.pc.toNat < 256 by simp [Opcode.length] at h; omega), except_bind_ok, ho]
  rcases s.memRead_cases (s.pc.toNat+1) with ⟨h1, e1⟩ | ⟨h1, e1⟩ <;>
        rcases s.memRead_cases (s.pc.toNat+2) with ⟨h2, e2⟩ | ⟨h2, e2⟩ <;>
  cases o <;> simp [Opcode.length, Opcode.format, Format.operandCount] at h <;> first | omega | skip
  all_goals simp [Opcode.format, Format.operandCount, e1, e2, except_bind_ok, Opcode.assemble]

/-- Lazy: where an operand byte lies past 255 the fetch raises with address 256. -/
theorem State.fetchLazy_short {s : State} {o : Opcode} (ho : Opcode.ofByte (s.mem.read s.pc.toNat) = some o)
    (h0 : s.pc.toNat ≤ 255) (h : 256 < s.pc.toNat + o.length) :
    s.fetchLazy = .error (.outOfRangeMemory 256) := by
  simp only [State.fetchLazy]
  rw [s.memRead_of_lt (show s.pc.toNat < 256 by omega), except_bind_ok, ho]
  rcases s.memRead_cases (s.pc.toNat+1) with ⟨h1, e1⟩ | ⟨h1, e1⟩ <;>
        rcases s.memRead_cases (s.pc.toNat+2) with ⟨h2, e2⟩ | ⟨h2, e2⟩ <;>
  cases o <;> simp [Opcode.length, Opcode.format, Format.operandCount] at h <;> first | omega | skip
  all_goals simp [Opcode.format, Format.operandCount, e1, e2, except_bind_ok, except_bind_error, Opcode.assemble]
  all_goals omega

/-! ### Either fetch -/

/-- Everything a fetch can raise: the first address past 255, exactly where it has one to read, or else the unrecognized
opcode byte. -/
theorem State.fetch_error_cases {p : FetchPolicy} {s : State} {c : FaultCause} (h : State.fetch p s = .error c) :
    (c = .unrecognizedOpcode (s.mem.read s.pc.toNat) ∧ Opcode.ofByte (s.mem.read s.pc.toNat) = none ∧ ¬ s.fetchRunsPast p) ∨
      (c = .outOfRangeMemory (if 255 < s.pc.toNat then s.pc.toNat else 256) ∧ s.fetchRunsPast p) := by
  cases p with
  | speculative =>
    simp only [State.fetch] at h
    by_cases hp : s.pc.toNat ≤ 253
    · rw [State.fetchSpeculative_of_le hp] at h
      cases hd : decodeBytes (s.mem.read s.pc.toNat) (s.mem.read (s.pc.toNat + 1)) (s.mem.read (s.pc.toNat + 2)) with
      | none =>
        rw [hd] at h
        exact .inl ⟨by simpa using h.symm, decodeBytes_eq_none_iff.1 hd, by simp only [State.fetchRunsPast]; omega⟩
      | some i => rw [hd] at h; simp at h
    · rw [State.fetchSpeculative_of_ge (by omega)] at h
      exact .inr ⟨by simpa using h.symm, by simp only [State.fetchRunsPast]; omega⟩
  | lazy =>
    simp only [State.fetch] at h
    by_cases hp : s.pc.toNat ≤ 255
    · cases ho : Opcode.ofByte (s.mem.read s.pc.toNat) with
      | none =>
        rw [State.fetchLazy_unrecognized hp ho] at h
        exact .inl ⟨by simpa using h.symm, rfl, by simp [State.fetchRunsPast, ho]; omega⟩
      | some o =>
        by_cases hl : s.pc.toNat + o.length ≤ 256
        · rw [State.fetchLazy_of_le ho hl] at h; simp at h
        · rw [State.fetchLazy_short ho hp (by omega)] at h
          exact .inr ⟨by rw [if_neg (by omega)]; simpa using h.symm, .inr ⟨o, ho, by omega⟩⟩
    · rw [State.fetchLazy, s.memRead_of_ge (by omega), except_bind_error] at h
      exact .inr ⟨by rw [if_pos (by omega)]; simpa using h.symm, .inl (by omega)⟩

/-- What a fetch can hand on: an instruction whose bytes lie within memory, of the row its opcode byte selects. -/
theorem State.fetch_ok_spec {p : FetchPolicy} {s : State} {i : Instr} (h : State.fetch p s = .ok i) :
    s.pc.toNat + i.length ≤ 256 ∧ Opcode.ofByte (s.mem.read s.pc.toNat) = some i.opcode ∧
      (p = .speculative → s.pc.toNat ≤ 253) := by
  cases p with
  | speculative =>
    simp only [State.fetch] at h
    by_cases hp : s.pc.toNat ≤ 253
    · rw [State.fetchSpeculative_of_le hp] at h
      cases hd : decodeBytes (s.mem.read s.pc.toNat) (s.mem.read (s.pc.toNat + 1)) (s.mem.read (s.pc.toNat + 2)) with
      | none => rw [hd] at h; simp at h
      | some j =>
        rw [hd] at h
        obtain rfl : j = i := by simpa using h
        obtain ⟨o, ho, hj⟩ := decodeBytes_eq_some_iff.1 hd
        subst hj
        refine ⟨?_, by simp [ho], fun _ => hp⟩
        cases o <;> simp [Instr.length, Opcode.length, Opcode.format, Format.operandCount, Opcode.assemble, Instr.opcode] <;> omega
    · rw [State.fetchSpeculative_of_ge (by omega)] at h; simp at h
  | lazy =>
    simp only [State.fetch, State.fetchLazy] at h
    rcases s.memRead_cases s.pc.toNat with ⟨h0, e0⟩ | ⟨h0, e0⟩
    · rw [e0, except_bind_ok] at h
      cases ho : Opcode.ofByte (s.mem.read s.pc.toNat) with
      | none => rw [ho] at h; simp at h
      | some o =>
        rw [ho] at h
        rcases s.memRead_cases (s.pc.toNat+1) with ⟨h1, e1⟩ | ⟨h1, e1⟩ <;>
        rcases s.memRead_cases (s.pc.toNat+2) with ⟨h2, e2⟩ | ⟨h2, e2⟩ <;>
        cases o <;> simp [Opcode.format, Format.operandCount, e1, e2, except_bind_ok, except_bind_error, Opcode.assemble] at h <;> subst h <;>
        simp [Instr.length, Opcode.length, Opcode.format, Format.operandCount, Instr.opcode] <;> omega
    · rw [e0, except_bind_error] at h; simp at h

end Sys2Proof.Machine
end

