-- ==== Sys2Proof/Laws/Exec.lean ====
section
/-!
SUPPORT. What an instruction can do, said once: it meets a bad register operand, or CALL's return-address check, or a stack
bound, and takes that fault; or it completes with the effect written below.
-/

namespace Sys2Proof.Machine

/-- The register a legal operand byte names. -/
def reg (a : Byte) : RegIndex := Fin.ofNat 8 a.toNat

theorem reg_of_lt {a : Byte} (h : a.toNat < 8) : reg a = ⟨a.toNat, h⟩ := by
  simp [reg, Fin.ext_iff, Nat.mod_eq_of_lt h]

theorem reg_eq_seven_iff {a : Byte} (h : a.toNat < 8) : reg a = 7 ↔ a = 7#8 := by
  rw [reg_of_lt h, Fin.ext_iff, BitVec.toNat_eq]
  rfl

/-- CALL's return-address check (40_fetch_decode_execute.md R100). -/
def State.returnFault (s : State) : Instr → Option FaultCause
  | .call _ => if 254 ≤ s.pc.toNat then some (.outOfRangeMemory (s.pc.toNat + 2)) else none
  | .hlt | .ldi _ _ | .prn _ | .mul _ _ | .add _ _ | .pop _ | .cmp _ _ | .jmp _ | .jeq _ | .jne _ | .push _ | .ret => none

/-- The state a pop leaves, the popped byte delivered to `u` already. -/
def State.afterPop (u : State) : State := u.writeReg Config.spIndex (u.sp + 1#8)

/-- The state a push leaves, the stored byte computed after the decrement. -/
def State.afterPush (s : State) (value : State → Byte) : State :=
  (s.writeReg Config.spIndex (s.sp - 1#8)).setMem
    (s.mem.write (s.sp - 1#8).toNat (value (s.writeReg Config.spIndex (s.sp - 1#8))))

@[simp] theorem State.afterPush_pc (s : State) (v : State → Byte) : (s.afterPush v).pc = s.pc := rfl
@[simp] theorem State.afterPush_flags (s : State) (v : State → Byte) : (s.afterPush v).flags = s.flags := rfl
@[simp] theorem State.afterPush_halted (s : State) (v : State → Byte) : (s.afterPush v).halted = s.halted := rfl
theorem State.afterPush_mem (s : State) (v : State → Byte) : (s.afterPush v).mem =
    s.mem.write (s.sp - 1#8).toNat (v (s.writeReg Config.spIndex (s.sp - 1#8))) := rfl
@[simp] theorem State.afterPush_fault (s : State) (v : State → Byte) : (s.afterPush v).fault = s.fault := rfl
@[simp] theorem State.afterPush_out (s : State) (v : State → Byte) : (s.afterPush v).out = s.out := rfl
@[simp] theorem State.afterPush_sp (s : State) (v : State → Byte) : (s.afterPush v).sp = s.sp - 1#8 := by
  simp [State.afterPush, State.sp_writeReg]
theorem State.afterPush_readReg (s : State) (v : State → Byte) (q : RegIndex) :
    (s.afterPush v).readReg q = if q = 7 then s.sp - 1#8 else s.readReg q := by
  simp [State.afterPush, State.readReg_writeReg]
@[simp] theorem State.afterPop_pc (s : State) : (s.afterPop).pc = s.pc := rfl
@[simp] theorem State.afterPop_flags (s : State) : (s.afterPop).flags = s.flags := rfl
@[simp] theorem State.afterPop_halted (s : State) : (s.afterPop).halted = s.halted := rfl
@[simp] theorem State.afterPop_mem (s : State) : (s.afterPop).mem = s.mem := rfl
@[simp] theorem State.afterPop_fault (s : State) : (s.afterPop).fault = s.fault := rfl
@[simp] theorem State.afterPop_out (s : State) : (s.afterPop).out = s.out := rfl
@[simp] theorem State.afterPop_sp (s : State) : (s.afterPop).sp = s.sp + 1#8 := by
  simp [State.afterPop, State.sp_writeReg]
theorem State.afterPop_readReg (s : State) (q : RegIndex) :
    (s.afterPop).readReg q = if q = 7 then s.sp + 1#8 else s.readReg q := by
  simp [State.afterPop, State.readReg_writeReg]

/-- The stack pointer's decrement does not wrap where a push has room (43_stack.md R141). -/
theorem toNat_sub_one {b : Byte} (h : b ≠ 0#8) : (b - 1#8).toNat + 1 = b.toNat := by
  have : b.toNat ≠ 0 := fun h' => h (BitVec.eq_of_toNat_eq h')
  bv_omega

/-- The stack pointer's increment does not wrap where a pop succeeds (43_stack.md R141). -/
theorem toNat_add_one {b : Byte} (h : b ≠ 0xFF#8) : (b + 1#8).toNat = b.toNat + 1 := by
  have : b.toNat ≠ 255 := fun h' => h (BitVec.eq_of_toNat_eq h')
  bv_omega

/-- A sequential advance within memory does not wrap (10_state.md R25). -/
theorem toNat_advance {pc : PC} {n : Nat} (h : pc.toNat + n ≤ 256) : (pc + BitVec.ofNat 9 n).toNat = pc.toNat + n := by
  rw [BitVec.toNat_add, BitVec.toNat_ofNat]
  omega

/-- A control transfer's target is the byte it comes from (44_control_transfer.md R155). -/
theorem toNat_target (b : Byte) : (b.setWidth 9).toNat = b.toNat := by
  rw [BitVec.toNat_setWidth]
  omega

/-- The completed effect of each instruction. -/
def State.effect (s : State) : Instr → State
  | .hlt => s.halt.advance 1
  | .ldi a imm => (s.writeReg (reg a) imm).advance 3
  | .prn a => (s.output (s.readReg (reg a))).advance 2
  | .mul a b => (s.writeReg (reg a) (s.readReg (reg a) * s.readReg (reg b))).advance 3
  | .add a b => (s.writeReg (reg a) (s.readReg (reg a) + s.readReg (reg b))).advance 3
  | .cmp a b => (s.setFlags (Flags.compare (s.readReg (reg a)) (s.readReg (reg b)))).advance 3
  | .push a => (s.afterPush fun t => t.readReg (reg a)).advance 2
  | .pop a => (s.writeReg (reg a) (s.mem.read s.stackSlot)).afterPop.advance 2
  | .call a =>
    let t := s.afterPush fun _ => BitVec.ofNat 8 (s.pc.toNat + 2)
    t.jump (t.readReg (reg a))
  | .ret => (s.jump (s.mem.read s.stackSlot)).afterPop
  | .jmp a => s.jump (s.readReg (reg a))
  | .jeq a => if s.flags.e then s.jump (s.readReg (reg a)) else s.advance 2
  | .jne a => if s.flags.e then s.advance 2 else s.jump (s.readReg (reg a))

/-- The outcome of an instruction in the order of its checks. -/
def State.outcome (s : State) (i : Instr) : State :=
  match firstBadOperand i with
  | some v => s.takeFault (.outOfRangeRegister v)
  | none =>
    match s.returnFault i with
    | some c => s.takeFault c
    | none =>
      match s.stackFault i with
      | some c => s.takeFault c
      | none => s.effect i

theorem firstBadOperand_one {b : Byte} {i : Instr} (h : i.regOperands = [b]) :
    firstBadOperand i = if 8 ≤ b.toNat then some b else none := by
  by_cases hb : 8 ≤ b.toNat <;> simp [firstBadOperand, h, hb]

theorem firstBadOperand_two {a b : Byte} {i : Instr} (h : i.regOperands = [a, b]) :
    firstBadOperand i = if 8 ≤ a.toNat then some a else if 8 ≤ b.toNat then some b else none := by
  by_cases ha : 8 ≤ a.toNat <;> by_cases hb : 8 ≤ b.toNat <;> simp [firstBadOperand, h, ha, hb]

theorem regIndex_bind (b : Byte) (f : RegIndex → Except FaultCause State) :
    (regIndex b >>= f) = if 8 ≤ b.toNat then .error (.outOfRangeRegister b) else f (reg b) := by
  rcases regIndex_cases b with ⟨h, e⟩ | ⟨h, e⟩
  · rw [e, if_neg (by omega), reg_of_lt h]
    rfl
  · rw [e, if_pos h]
    rfl

theorem State.push_bind (s : State) (v : State → Byte) (f : State → Except FaultCause State) :
    (s.push v >>= f) = if s.sp = 0#8 then .error (.stackOverflow 0#8) else f (s.afterPush v) := by
  by_cases h : s.sp = 0#8
  · rw [State.push_of_zero h, if_pos h]
    rfl
  · rw [State.push_of_ne h, if_neg h]
    rfl

theorem State.pop_eq (s : State) (d : State → Byte → State) :
    s.pop d = if (d s (s.mem.read s.stackSlot)).sp = 0xFF#8 then .error (.stackUnderflow 0xFF#8)
      else .ok (d s (s.mem.read s.stackSlot)).afterPop := by
  by_cases h : (d s (s.mem.read s.stackSlot)).sp = 0xFF#8
  · rw [State.pop_of_max h, if_pos h]
  · rw [State.pop_of_ne h, if_neg h]
    rfl

theorem State.sp_deliver {s : State} {a : Byte} (h : a.toNat < 8) (v : Byte) :
    (s.writeReg (reg a) v).sp = if a = 7#8 then v else s.sp := by
  rw [State.sp_writeReg]
  simp only [Config.spIndex, reg_eq_seven_iff h]

/-- Every instruction's outcome: one of its faults, in the order of the checks, or its effect. -/
theorem exec_eq (i : Instr) (s : State) : exec i s = .next (s.outcome i) := by
  cases i with
  | hlt => rfl
  | ldi a _ | prn a | jmp a | jeq a | jne a =>
    simp only [exec, execLdi, execPrn, execJmp, execJeq, execJne, regIndex_bind, State.outcome]
    rw [firstBadOperand_one (b := a) rfl]
    by_cases h : 8 ≤ a.toNat <;> simp only [h, if_true, if_false] <;> rfl
  | mul a b | add a b | cmp a b =>
    simp only [exec, execMul, execAdd, execCmp, State.aluInstr, regIndex_bind, State.outcome]
    rw [firstBadOperand_two (a := a) (b := b) rfl]
    by_cases ha : 8 ≤ a.toNat <;> by_cases hb : 8 ≤ b.toNat <;> simp only [ha, hb, if_true, if_false] <;> rfl
  | push a =>
    simp only [exec, execPush, regIndex_bind, State.push_bind, State.outcome]
    rw [firstBadOperand_one (b := a) rfl]
    by_cases h : 8 ≤ a.toNat <;> by_cases hs : s.sp = 0#8 <;>
      simp only [h, hs, if_true, if_false, State.returnFault, State.stackFault] <;> rfl
  | pop a =>
    simp only [exec, execPop, regIndex_bind, State.pop_eq, State.outcome]
    rw [firstBadOperand_one (b := a) rfl]
    by_cases h : 8 ≤ a.toNat
    · simp only [h, if_true]
      rfl
    · simp only [h, if_false, State.returnFault, State.stackFault, State.sp_deliver (Nat.lt_of_not_le h)]
      by_cases hs : (if a = 7#8 then s.mem.read s.stackSlot else s.sp) = 0xFF#8 <;> simp only [hs, if_true, if_false] <;> rfl
  | call a =>
    simp only [exec, execCall, regIndex_bind, State.push_bind, State.outcome]
    rw [firstBadOperand_one (b := a) rfl]
    by_cases h : 8 ≤ a.toNat
    · simp only [h, if_true]
      rfl
    · by_cases hp : 254 ≤ s.pc.toNat
      · simp only [h, if_false, State.returnFault, hp, if_true, s.returnAddress_of_ge hp]
        rfl
      · simp only [h, if_false, State.returnFault, hp, State.stackFault, s.returnAddress_of_le (by omega)]
        by_cases hs : s.sp = 0#8 <;> simp only [hs, if_true, if_false] <;> rfl
  | ret =>
    simp only [exec, execRet, State.pop_eq, State.outcome]
    show State.complete s (if s.sp = 0xFF#8 then _ else _) = _
    simp only [firstBadOperand, Instr.regOperands, List.find?_nil, State.returnFault, State.stackFault]
    by_cases hs : s.sp = 0xFF#8 <;> simp only [hs, if_true, if_false] <;> rfl

/-- Everything an instruction can do: take the fault of a bad register operand, of CALL's return address or of a stack
bound, or complete with its effect, all its register operands being legal. -/
theorem exec_cases {i : Instr} {s t : State} (h : exec i s = .next t) :
    (∃ v, firstBadOperand i = some v ∧ t = s.takeFault (.outOfRangeRegister v)) ∨
    (firstBadOperand i = none ∧ ∃ c, s.returnFault i = some c ∧ t = s.takeFault c) ∨
    (firstBadOperand i = none ∧ s.returnFault i = none ∧ ∃ c, s.stackFault i = some c ∧ t = s.takeFault c) ∨
    (firstBadOperand i = none ∧ s.returnFault i = none ∧ s.stackFault i = none ∧ t = s.effect i) := by
  rw [exec_eq] at h
  obtain rfl : s.outcome i = t := by simpa using h
  unfold State.outcome
  cases hb : firstBadOperand i with
  | some v => exact .inl ⟨v, rfl, rfl⟩
  | none =>
    cases hr : s.returnFault i with
    | some c => exact .inr (.inl ⟨rfl, c, rfl, rfl⟩)
    | none =>
      cases hs : s.stackFault i with
      | some c => exact .inr (.inr (.inl ⟨rfl, rfl, c, rfl, rfl⟩))
      | none => exact .inr (.inr (.inr ⟨rfl, rfl, rfl, rfl⟩))

/-! ### The completed effect -/

/-- A completed instruction leaves the fault record. -/
@[simp] theorem State.effect_fault (s : State) (i : Instr) : (s.effect i).fault = s.fault := by
  cases i <;> simp [State.effect] <;> split <;> simp

/-- A completed instruction leaves `halted`, but for HLT. -/
theorem State.effect_halted (s : State) (i : Instr) : (s.effect i).halted = true ↔ s.halted = true ∨ i = .hlt := by
  cases i <;> simp [State.effect] <;> split <;> simp

/-- CMP's three-way comparison: each flag by its own condition, and exactly one of them (42_alu.md R123, R126). -/
theorem Flags.compare_spec (u v : Byte) :
    ((Flags.compare u v).e = true ↔ u = v) ∧ ((Flags.compare u v).g = true ↔ v.toNat < u.toNat) ∧
      ((Flags.compare u v).l = true ↔ u.toNat < v.toNat) ∧
      (Flags.compare u v).l.toNat + (Flags.compare u v).g.toNat + (Flags.compare u v).e.toNat = 1 := by
  unfold Flags.compare
  by_cases h : u = v
  · simp [h]
  · have h' : u.toNat ≠ v.toNat := fun h2 => h (BitVec.eq_of_toNat_eq h2)
    by_cases h2 : v.toNat < u.toNat
    · simp [h, h2]; omega
    · simp [h, h2]; omega

/-- A completed instruction's memory: as before, or after PUSH or CALL with the one byte below the stack pointer written. -/
theorem State.effect_mem (s : State) (i : Instr) :
    (State.effect s i).mem = s.mem ∨
      ((∃ a, i = .push a) ∨ ∃ a, i = .call a) ∧ ∃ v, (State.effect s i).mem = s.mem.write (s.sp - 1#8).toNat v := by
  cases i
  case push a => exact .inr ⟨.inl ⟨_, rfl⟩, _, rfl⟩
  case call a => exact .inr ⟨.inr ⟨_, rfl⟩, _, rfl⟩
  all_goals left; simp [State.effect]; try (split <;> simp)

/-- A completed instruction's flags: as before, or after CMP those of a comparison. -/
theorem State.effect_flags (s : State) (i : Instr) :
    (State.effect s i).flags = s.flags ∨ ∃ a b u v, i = .cmp a b ∧ (State.effect s i).flags = Flags.compare u v := by
  cases i
  case cmp a b => exact .inr ⟨_, _, _, _, rfl, rfl⟩
  all_goals left; simp [State.effect]; try (split <;> simp)

end Sys2Proof.Machine
end

