-- ==== Sys2Proof/Laws/PerInstr.lean ====
section
/-!
SUPPORT. Facts proved instruction by instruction. `EncodingLength`: the encoding is as long as the instruction, and the
top two bits of the opcode byte are the operand count (30_encoding.md R73).
-/

namespace Sys2Proof.Laws.EncodingLength

/-- The encoding has the length of R72, the length is one plus `opcode[7:6]` (R73), and the opcode byte comes first. -/
def Statement (i : Instr) : Prop :=
  (encode i).length = i.length ∧ i.length = 1 + (i.opcode.byte.extractLsb 7 6).toNat ∧ (encode i).head? = some i.opcode.byte

theorem hlt : Statement .hlt := ⟨rfl, Opcode.length_eq_top_bits _, rfl⟩
theorem ldi (a imm : Byte) : Statement (.ldi a imm) := ⟨rfl, Opcode.length_eq_top_bits _, rfl⟩
theorem prn (a : Byte) : Statement (.prn a) := ⟨rfl, Opcode.length_eq_top_bits _, rfl⟩
theorem mul (a b : Byte) : Statement (.mul a b) := ⟨rfl, Opcode.length_eq_top_bits _, rfl⟩
theorem add (a b : Byte) : Statement (.add a b) := ⟨rfl, Opcode.length_eq_top_bits _, rfl⟩
theorem pop (a : Byte) : Statement (.pop a) := ⟨rfl, Opcode.length_eq_top_bits _, rfl⟩
theorem cmp (a b : Byte) : Statement (.cmp a b) := ⟨rfl, Opcode.length_eq_top_bits _, rfl⟩
theorem jmp (a : Byte) : Statement (.jmp a) := ⟨rfl, Opcode.length_eq_top_bits _, rfl⟩
theorem jeq (a : Byte) : Statement (.jeq a) := ⟨rfl, Opcode.length_eq_top_bits _, rfl⟩
theorem jne (a : Byte) : Statement (.jne a) := ⟨rfl, Opcode.length_eq_top_bits _, rfl⟩
theorem push (a : Byte) : Statement (.push a) := ⟨rfl, Opcode.length_eq_top_bits _, rfl⟩
theorem call (a : Byte) : Statement (.call a) := ⟨rfl, Opcode.length_eq_top_bits _, rfl⟩
theorem ret : Statement .ret := ⟨rfl, Opcode.length_eq_top_bits _, rfl⟩

end Sys2Proof.Laws.EncodingLength
end

