-- ==== Sys2Proof/Tests/Slice0.lean ====
section
/-!
SUPPORT. Tests of the model and witnesses for the statements. Expected results come from the spec: the encoding tables of
30_encoding.md (decoding), the vectors of 95_test_vectors.md (named V-… or S… in each comment), the rules elsewhere.
-/

namespace Sys2Proof.Tests

open Sys2Proof.Machine

/-! ### Helpers -/

/-- The next state, if there is one. -/
def after : Host.Outcome State Fault Refusal → Option State
  | .next t => some t
  | .fault _ => none
  | .refused _ => none

/-- Bytes placed from an address on, in memory that is otherwise 0x00. -/
def bytesAt (a : Nat) : List Byte → Memory
  | [] => []
  | b :: bs => Memory.write (bytesAt (a + 1) bs) a b

/-- Reset, with a program counter, the bytes there, `x[0]`, `x[1]` and the stack pointer. -/
def boot (pc : PC) (bytes : List Byte) (r0 r1 sp : Byte) : State :=
  { State.reset with pc := pc, mem := bytesAt pc.toNat bytes, regs := #v[r0, r1, 0, 0, 0, 0, 0, sp] }

/-- One step's next state seen through a function. -/
def seen {α : Type} (s : State) (f : State → α) : Option α := (after (step s)).map f

/-! ### Decoding: one word per row, written out from 30_encoding.md R71 and R72 -/

theorem test_decode_hlt : decode [0b00000001#8] = .ok (.hlt, []) := by decide
theorem test_decode_ldi : decode [0b10000010#8, 0b00000101#8, 0b11001000#8] = .ok (.ldi 5#8 200#8, []) := by decide
theorem test_decode_prn : decode [0b01000111#8, 0b00000110#8] = .ok (.prn 6#8, []) := by decide
theorem test_decode_mul : decode [0b10100010#8, 0b00000001#8, 0b00000010#8] = .ok (.mul 1#8 2#8, []) := by decide
theorem test_decode_add : decode [0b10100000#8, 0b00000011#8, 0b00000100#8] = .ok (.add 3#8 4#8, []) := by decide
theorem test_decode_pop : decode [0b01000110#8, 0b00000111#8] = .ok (.pop 7#8, []) := by decide
theorem test_decode_cmp : decode [0b10100111#8, 0b00000010#8, 0b00000000#8] = .ok (.cmp 2#8 0#8, []) := by decide
theorem test_decode_jmp : decode [0b01010100#8, 0b00000010#8] = .ok (.jmp 2#8, []) := by decide
theorem test_decode_jeq : decode [0b01010101#8, 0b00000011#8] = .ok (.jeq 3#8, []) := by decide
theorem test_decode_jne : decode [0b01010110#8, 0b00000100#8] = .ok (.jne 4#8, []) := by decide
theorem test_decode_push : decode [0b01000101#8, 0b00000101#8] = .ok (.push 5#8, []) := by decide
theorem test_decode_call : decode [0b01010000#8, 0b00000001#8, 0b11111111#8] = .ok (.call 1#8, [255#8]) := by decide
theorem test_decode_ret : decode [0b00010001#8] = .ok (.ret, []) := by decide

/-- V-F12: the neighbours of the legal opcode bytes are unrecognized. -/
theorem test_neighbours_unrecognized :
    [0x00#8, 0x02#8, 0x10#8, 0x12#8, 0x44#8, 0x48#8, 0x51#8, 0x52#8, 0x53#8, 0x57#8, 0x81#8, 0x83#8, 0xA1#8, 0xA3#8, 0xA6#8,
      0xA8#8].all (fun b => (Opcode.ofByte b).isNone) = true := by decide

theorem test_table_word : decodeTableWord 24 0x080082 = some (.ldi 0#8 8#8) ∧ decodeTableWord 8 0x82 = some (.ldi 0#8 0#8) ∧
    decodeTableWord 8 0x02 = none := by decide

/-! ### Ill-formed terms: one per check of WellFormed (30_encoding.md R76) -/

theorem test_illFormed_ldi : (Instr.ldi 8#8 5#8).wellFormed = false := by decide
theorem test_illFormed_prn : (Instr.prn 255#8).wellFormed = false := by decide
theorem test_illFormed_mul_a : (Instr.mul 8#8 0#8).wellFormed = false := by decide
theorem test_illFormed_mul_b : (Instr.mul 0#8 9#8).wellFormed = false := by decide
theorem test_illFormed_add_a : (Instr.add 8#8 0#8).wellFormed = false := by decide
theorem test_illFormed_add_b : (Instr.add 7#8 8#8).wellFormed = false := by decide
theorem test_illFormed_pop : (Instr.pop 8#8).wellFormed = false := by decide
theorem test_illFormed_cmp_a : (Instr.cmp 10#8 7#8).wellFormed = false := by decide
theorem test_illFormed_cmp_b : (Instr.cmp 7#8 11#8).wellFormed = false := by decide
theorem test_illFormed_jmp : (Instr.jmp 128#8).wellFormed = false := by decide
theorem test_illFormed_jeq : (Instr.jeq 8#8).wellFormed = false := by decide
theorem test_illFormed_jne : (Instr.jne 8#8).wellFormed = false := by decide
theorem test_illFormed_push : (Instr.push 9#8).wellFormed = false := by decide
theorem test_illFormed_call : (Instr.call 8#8).wellFormed = false := by decide
theorem test_wellFormed_edges : (Instr.ldi 7#8 255#8).wellFormed = true ∧ Instr.hlt.wellFormed = true ∧
    Instr.ret.wellFormed = true := by decide

/-! ### One step of each instruction -/

/-- V-D2. -/
theorem test_hlt_at_253 : seen (boot 253 [0x01#8] 0 0 0xFF) (fun t => (t.halted, t.pc, t.fault)) =
    some (true, 254, none) := by decide

/-- V-D5. -/
theorem test_ldi_moves_sp : seen (boot 0 [0x82#8, 7, 0x80#8] 0 0 0xFF) (fun t => (t.sp, t.pc)) = some (0x80, 3) := by decide

/-- V-D7. -/
theorem test_ldi_bad_register : seen (boot 0 [0x82#8, 8, 5] 0 0 0xFF) (fun t => (t.fault, t.regs)) =
    some (some ⟨.outOfRangeRegister 8, 0⟩, State.reset.regs) := by decide

/-- V-D9. -/
theorem test_prn_sp : seen (boot 4 [0x47#8, 7] 0 0 0xFF) (fun t => (t.out, t.pc)) = some ([255], 6) := by decide

/-- V-M5: 65025 = 254 * 256 + 1. -/
theorem test_mul_wraps : seen (boot 0 [0xA2#8, 0, 1] 0xFF 0xFF 0xFF) (fun t => (t.readReg 0, t.flags)) =
    some (1, State.reset.flags) := by decide

/-- V-A20: operand b is bad. -/
theorem test_mul_bad_b : seen (boot 0 [0xA2#8, 0, 9] 1 1 0xFF) (fun t => t.fault) =
    some (some ⟨.outOfRangeRegister 9, 0⟩) := by decide

/-- V-F7 and V-A6: 300 - 256, at the last address that executes. -/
theorem test_add_wraps_at_253 : seen (boot 253 [0xA0#8, 0, 1] 200 100 0xFF) (fun t => (t.readReg 0, t.readReg 1, t.pc)) =
    some (44, 100, 256) := by decide

/-- V-A9: the stack pointer wraps through ADD without a stack fault. -/
theorem test_add_sp_wraps : seen (boot 0 [0xA0#8, 7, 1] 0 1 0xFF) (fun t => (t.sp, t.fault)) = some (0, none) := by decide

/-- V-A14: unsigned. -/
theorem test_cmp_unsigned : seen (boot 0 [0xA7#8, 0, 1] 0xFF 0 0xFF) (fun t => (t.flags.l, t.flags.g, t.flags.e)) =
    some (false, true, false) := by decide

/-- V-A21: operand a is reported before operand b. -/
theorem test_cmp_bad_a_first : seen (boot 0 [0xA7#8, 10, 11] 0 0 0xFF) (fun t => t.fault) =
    some (some ⟨.outOfRangeRegister 10, 0⟩) := by decide

/-- V-S7: PUSH R7 stores the decremented stack pointer. -/
theorem test_push_sp : seen (boot 0 [0x45#8, 7] 0 0 0x80) (fun t => (t.sp, t.mem.read 0x7F, t.mem.read 0x80)) =
    some (0x7F, 0x7F, 0) := by decide

/-- V-S11: a bad operand comes before the stack bound. -/
theorem test_push_bad_register_first : seen (boot 0 [0x45#8, 9] 0 0 0) (fun t => t.fault) =
    some (some ⟨.outOfRangeRegister 9, 0⟩) := by decide

/-- V-S12: a pop reads any cell, here its own opcode byte. -/
theorem test_pop_own_opcode : seen (boot 0 [0x46#8, 2] 0 0 0) (fun t => (t.readReg 2, t.sp, t.mem.read 0)) =
    some (0x46, 1, 0x46) := by decide

/-- V-S13: POP R7 at reset is judged by the popped byte. -/
theorem test_pop_sp_at_reset : seen (boot 0 [0x46#8, 7] 0 0 0xFF) (fun t => (t.sp, t.pc, t.fault)) =
    some (1, 2, none) := by decide

/-- V-C12: CALL R7 goes to the decremented stack pointer. -/
theorem test_call_sp : seen (boot 0x10 [0x50#8, 7] 0 0 0x80) (fun t => (t.sp, t.mem.read 0x7F, t.pc)) =
    some (0x7F, 0x12, 0x7F) := by decide

/-- V-C2. -/
theorem test_call_overflow : seen (boot 6 [0x50#8, 1] 0 11 0) (fun t => (t.fault, t.pc)) =
    some (some ⟨.stackOverflow 0, 6⟩, 6) := by decide

/-- V-C3, the return address standing at 0xFE. -/
theorem test_ret : seen { boot 0x12 [0x11#8] 0 0 0xFE with mem := [(0x12, 0x11), (0xFE, 8)] } (fun t => (t.pc, t.sp)) =
    some (8, 0xFF) := by decide

/-- V-C4. -/
theorem test_ret_underflow : seen (boot 0 [0x11#8] 0 0 0xFF) (fun t => (t.fault, t.pc)) =
    some (some ⟨.stackUnderflow 0xFF, 0⟩, 0) := by decide

/-- V-C14: the target is accepted; the next fetch faults. -/
theorem test_jmp_to_top : (seen (boot 3 [0x54#8, 0] 0xFE 0 0xFF) id).bind (fun t => seen t fun u => (t.pc, u.fault)) =
    some (0xFE, some ⟨.outOfRangeMemory 256, 0xFE⟩) := by decide

/-- V-C6. -/
theorem test_jeq_taken : seen { boot 0x10 [0x55#8, 1] 0 0x20 0xFF with flags := ⟨false, false, true⟩ }
    (fun t => (t.pc, t.flags)) = some (0x20, ⟨false, false, true⟩) := by decide

/-- V-C11: the operand is validated although the jump would not be taken. -/
theorem test_jeq_bad_register : seen (boot 0 [0x55#8, 8] 0 0 0xFF) (fun t => t.fault) =
    some (some ⟨.outOfRangeRegister 8, 0⟩) := by decide

/-- V-C10: JNE jumps before any CMP. -/
theorem test_jne_at_reset_flags : seen (boot 0 [0x56#8, 0] 0x30 0 0xFF) (fun t => t.pc) = some 0x30 := by decide

/-- V-C9. -/
theorem test_jne_not_taken : seen { boot 0x18 [0x56#8, 1] 0 15 0xFF with flags := ⟨false, false, true⟩ }
    (fun t => t.pc) = some 0x1A := by decide

/-! ### Fetch, policies, terminal states, host view -/

/-- V-F4: speculative against lazy. -/
theorem test_fetch_at_254 :
    seen (boot 254 [0x01#8] 0 0 0xFF) (fun t => (t.fault, t.halted)) = some (some ⟨.outOfRangeMemory 256, 254⟩, false) ∧
    (after (stepWith .lazy (boot 254 [0x01#8] 0 0 0xFF))).map (fun t => (t.fault, t.halted, t.pc)) =
      some (none, true, 255) := by decide

/-- V-F8. -/
theorem test_lazy_call_at_254 : (after (stepWith .lazy (boot 254 [0x50#8, 0] 0 0 0xFF))).map (fun t => t.fault) =
    some (some ⟨.outOfRangeMemory 256, 254⟩) := by decide

/-- V-F1 and S9: exit status 1 and no output. -/
theorem test_unknown_opcode : seen (boot 0 [0x02#8] 0 0 0xFF) (fun t => (t.fault, t.exitStatus, t.out)) =
    some (some ⟨.unrecognizedOpcode 2, 0⟩, some 1, []) := by decide

/-- V-F10: no step from a terminal state. -/
theorem test_no_step_when_terminal :
    after (step { boot 0 [0x01#8] 0 0 0xFF with halted := true }) = none ∧
    after (step { boot 0 [0x01#8] 0 0 0xFF with fault := some ⟨.stackOverflow 0, 0⟩ }) = none := by decide

/-- A word placed by the host runs as the first instruction after reset. -/
theorem test_withFetchWord : seen (State.reset.withFetchWord 24 0x090182) (fun t => (t.readReg 1, t.pc)) =
    some (9, 3) := by decide

/-- The text of program P1's first instruction (30_encoding.md R79, 95_test_vectors.md P1). -/
theorem test_parse_text :
    parseLines [['1', '0', '0', '0', '0', '0', '1', '0', ' ', '#', ' ', 'L', 'D', 'I'], [],
      ['0', '0', '0', '0', '0', '0', '0', '0'], ['#', 'x'], ['0', '0', '0', '0', '1', '0', '0', '0']] =
      .ok [0x82, 0, 8] ∧
    parseLine ['L', 'D', 'I'] = .error .nonBinaryToken ∧ parseLine ['1', '0'] = .error .tokenLengthOpen ∧
    parseLine [' ', '1'] = .error .leadingSpaceOpen := by decide

/-- S11: the trace line of program P1's start state. -/
theorem test_trace_line : (boot 0 [0x82#8, 0, 8] 0 0 0xFF).traceLine = some "TRACE: 00 | 82 00 08 | 00 00 00 00 00 00 00 FF".toList := by
  decide

/-- S8: 72 prints as the line `72`. -/
theorem test_printed : ({ State.reset with out := [72, 0, 255] } : State).printed = [['7', '2'], ['0'], ['2', '5', '5']] := by
  decide

/-! ### Witnesses: states and operands that meet the hypotheses of each statement, at the edges of each clause -/

/-- Reset with a program counter alone. -/
def pcAt (pc : PC) : State := { State.reset with pc := pc }

theorem witness_DecodeEncodeRoundTrip : decode [0x47#8, 9#8, 1#8] = .ok (.prn 9#8, [1#8]) := by decide

theorem witness_ThirteenBytesDecode : ∃ s : State, s.Running ∧ s.pc.toNat = 253 ∧
    ∀ o : Opcode, o.byte ≠ s.mem.read s.pc.toNat :=
  ⟨pcAt 253, ⟨rfl, rfl⟩, rfl, fun o => by cases o <;> decide⟩

theorem witness_StepRunsDecodedInstruction : ∃ (s : State) (i : Instr) (rest : List Byte), s.Running ∧ s.pc.toNat = 253 ∧
    decode [s.mem.read s.pc.toNat, s.mem.read (s.pc.toNat + 1), s.mem.read (s.pc.toNat + 2)] = .ok (i, rest) ∧
    (encode i).head? = some (s.mem.read s.pc.toNat) ∧ (encode i).length = 1 :=
  ⟨boot 253 [0x11#8] 0 0 0xFF, .ret, [0, 0], ⟨rfl, rfl⟩, rfl, by decide, by decide, rfl⟩

theorem witness_FetchBeyondMemoryFaults : (∃ s : State, s.Running ∧ s.pc.toNat = 254) ∧ (∃ s : State, s.Running ∧ s.pc.toNat = 255) ∧
    (∃ s : State, s.Running ∧ s.pc.toNat = 256) ∧ ∃ s : State, s.pc.toNat = 253 :=
  ⟨⟨pcAt 254, ⟨rfl, rfl⟩, rfl⟩, ⟨pcAt 255, ⟨rfl, rfl⟩, rfl⟩, ⟨pcAt 256, ⟨rfl, rfl⟩, rfl⟩, ⟨pcAt 253, rfl⟩⟩

theorem witness_StepEnabledExactlyWhenRunning : (∃ s : State, s.Running) ∧ ∃ s : State, ¬ s.Running :=
  ⟨⟨State.reset, rfl, rfl⟩, ⟨{ State.reset with halted := true }, fun h => absurd h.1 (by decide)⟩⟩

theorem witness_FaultingStepCommitsNothing : ∃ (p : FetchPolicy) (s t : State), stepWith p s = .next t ∧ t.fault ≠ none :=
  ⟨.speculative, State.reset, _, rfl, by decide⟩

/-- One state for each cause a step can record, each way to read past 255, and CALL at 254 under the lazy policy. -/
theorem witness_FaultCausesMatchTheirConditions :
    (∃ t, stepWith .speculative State.reset = .next t ∧ t.fault = some ⟨.unrecognizedOpcode 0, 0⟩) ∧
    (∃ t, stepWith .lazy (pcAt 256) = .next t ∧ t.fault = some ⟨.outOfRangeMemory 256, 256⟩) ∧
    (∃ t, stepWith .speculative (pcAt 254) = .next t ∧ t.fault = some ⟨.outOfRangeMemory 256, 254⟩) ∧
    (∃ t, stepWith .lazy (boot 254 [0x82#8, 8] 0 0 0) = .next t ∧ t.fault = some ⟨.outOfRangeMemory 256, 254⟩) ∧
    (∃ t, stepWith .lazy (boot 255 [0x47#8] 0 0 0) = .next t ∧ t.fault = some ⟨.outOfRangeMemory 256, 255⟩) ∧
    (∃ t, stepWith .lazy (boot 254 [0x50#8, 0] 0 0 0) = .next t ∧ t.fault = some ⟨.outOfRangeMemory 256, 254⟩) ∧
    (∃ t, stepWith .lazy (boot 254 [0x45#8, 8] 0 0 0) = .next t ∧ t.fault = some ⟨.outOfRangeRegister 8, 254⟩) ∧
    (∃ t, stepWith .speculative (boot 0 [0x50#8, 7] 0 0 0) = .next t ∧ t.fault = some ⟨.stackOverflow 0, 0⟩) ∧
    (∃ t, stepWith .speculative (boot 0 [0x46#8, 6] 0 0 0xFF) = .next t ∧ t.fault = some ⟨.stackUnderflow 0xFF, 0⟩) ∧
    (∃ t, stepWith .speculative (boot 0 [0x46#8, 7, 0xFF] 0 0 2) = .next t ∧ t.fault = some ⟨.stackUnderflow 0xFF, 0⟩) ∧
    ∃ t, stepWith .speculative (boot 0 [0x11#8] 0 0 0xFF) = .next t ∧ t.fault = some ⟨.stackUnderflow 0xFF, 0⟩ :=
  ⟨⟨_, rfl, by decide⟩, ⟨_, rfl, by decide⟩, ⟨_, rfl, by decide⟩, ⟨_, rfl, by decide⟩, ⟨_, rfl, by decide⟩, ⟨_, rfl, by decide⟩,
    ⟨_, rfl, by decide⟩, ⟨_, rfl, by decide⟩, ⟨_, rfl, by decide⟩, ⟨_, rfl, by decide⟩, ⟨_, rfl, by decide⟩⟩

/-- The three fetched bytes decode to a given instruction in a running state at a given address. -/
abbrev Fetches (s : State) (pc : Nat) (i : Instr) : Prop :=
  s.halted = false ∧ s.fault = none ∧ s.pc.toNat = pc ∧
    decodeBytes (s.mem.read s.pc.toNat) (s.mem.read (s.pc.toNat + 1)) (s.mem.read (s.pc.toNat + 2)) = some i

theorem witness_FaultPriority_speculative :
    (∃ s i v, Fetches s 253 i ∧ firstBadOperand i = some v) ∧
    (∃ s i c, Fetches s 253 i ∧ firstBadOperand i = none ∧ s.stackFault i = some c) ∧
    (∃ s i, Fetches s 253 i ∧ firstBadOperand i = none ∧ s.stackFault i = none) :=
  ⟨⟨boot 253 [0xA0#8, 7, 8] 0 0 0, .add 7 8, 8, by decide, by decide⟩,
    ⟨boot 253 [0x50#8, 7] 0 0 0, .call 7, .stackOverflow 0, by decide, by decide, by decide⟩,
    ⟨boot 253 [0x46#8, 7] 0 0 0xFF, .pop 7, by decide, by decide, by decide⟩⟩

theorem witness_FaultPriority_lazy :
    (∃ s : State, s.Running ∧ s.pc.toNat = 256) ∧
    (∃ s : State, s.Running ∧ s.pc.toNat = 255 ∧ Opcode.ofByte (s.mem.read s.pc.toNat) = none) ∧
    (∃ s : State, s.Running ∧ s.pc.toNat = 254 ∧ Opcode.ofByte (s.mem.read s.pc.toNat) = some .add ∧ 256 < 254 + Opcode.add.length) ∧
    (∃ s : State, s.Running ∧ s.pc.toNat + Opcode.push.length = 256 ∧ Opcode.ofByte (s.mem.read s.pc.toNat) = some .push ∧
      firstBadOperand (.push (s.mem.read (s.pc.toNat + 1))) = some 8) ∧
    (∃ s : State, s.Running ∧ s.pc.toNat = 254 ∧ Opcode.ofByte (s.mem.read s.pc.toNat) = some .call ∧
      firstBadOperand (.call (s.mem.read (s.pc.toNat + 1))) = none) ∧
    (∃ s : State, s.Running ∧ s.pc.toNat + Opcode.ret.length = 256 ∧ Opcode.ofByte (s.mem.read s.pc.toNat) = some .ret ∧
      s.stackFault .ret = some (.stackUnderflow 0xFF)) ∧
    (∃ s : State, s.Running ∧ s.pc.toNat + Opcode.hlt.length = 256 ∧ Opcode.ofByte (s.mem.read s.pc.toNat) = some .hlt ∧
      s.stackFault .hlt = none) :=
  ⟨⟨pcAt 256, ⟨rfl, rfl⟩, rfl⟩, ⟨pcAt 255, ⟨rfl, rfl⟩, rfl, by decide⟩,
    ⟨boot 254 [0xA0#8, 0] 0 0 0, ⟨rfl, rfl⟩, rfl, by decide, by decide⟩,
    ⟨boot 254 [0x45#8, 8] 0 0 0, ⟨rfl, rfl⟩, rfl, by decide, by decide⟩,
    ⟨boot 254 [0x50#8, 7] 0 0 0, ⟨rfl, rfl⟩, rfl, by decide, by decide⟩,
    ⟨boot 255 [0x11#8] 0 0 0xFF, ⟨rfl, rfl⟩, rfl, by decide, by decide⟩,
    ⟨boot 255 [0x01#8] 0 0 0xFF, ⟨rfl, rfl⟩, rfl, by decide, rfl⟩⟩

theorem witness_BadRegisterOperandFaults : firstBadOperand (.jne 8#8) = some 8#8 ∧ firstBadOperand (.cmp 255#8 8#8) = some 255#8 ∧
    firstBadOperand (.mul 7#8 8#8) = some 8#8 := by decide

theorem witness_UnrecognizedOpcodeFaults :
    (∃ s : State, s.Running ∧ s.pc.toNat = 253 ∧ s.mem.read 253 = 0x00#8) ∧
    ∃ s : State, s.Running ∧ s.pc.toNat = 255 ∧ s.mem.read 255 = 0xA3#8 :=
  ⟨⟨pcAt 253, ⟨rfl, rfl⟩, rfl, rfl⟩, ⟨boot 255 [0xA3#8] 0 0 0, ⟨rfl, rfl⟩, rfl, by decide⟩⟩

theorem witness_inv : (boot 253 [0xA7#8, 0, 1] 1 2 0).Inv :=
  ⟨by decide, by decide, by decide, by decide, fun _ h => absurd h (by simp [boot, State.reset])⟩

theorem witness_StepKeepsInvariant : ∃ t, stepWith .speculative (boot 253 [0xA7#8, 0, 1] 1 2 0) = .next t ∧ t.pc.toNat = 256 :=
  ⟨_, rfl, by decide⟩

theorem witness_LoadedRunsMeetInvariant : ∃ s t, State.load [0x82#8, 7, 9, 0x01#8] = .ok s ∧
    Host.Core.run Sys2Proof.core 2 s = .next t ∧ t.halted = true :=
  ⟨_, _, rfl, rfl, by decide⟩

/-- CMP at 253; JEQ with only L changed, and an instruction that reads no flag. -/
theorem witness_FlagsWrittenByCmpReadByConditionalJumps :
    (∃ t, stepWith .speculative (boot 253 [0xA7#8, 0, 1] 2 1 0) = .next t ∧ t.flags ≠ State.reset.flags) ∧
    (∃ t, exec (.jeq 7) State.reset = .next t) ∧ (⟨true, false, false⟩ : Flags).e = State.reset.flags.e ∧
    (∃ t, exec (.push 7) State.reset = .next t) ∧ State.reset.flags.atMostOne = true :=
  ⟨⟨_, rfl, by decide⟩, ⟨_, rfl⟩, rfl, ⟨_, rfl⟩, by decide⟩

theorem witness_HaltedSetOnlyByHlt :
    (∃ t, stepWith .lazy (boot 255 [0x01#8] 0 0 0) = .next t ∧ t.halted = true) ∧ ∃ s : State, s.halted = true :=
  ⟨⟨_, rfl, by decide⟩, ⟨{ State.reset with halted := true }, rfl⟩⟩

theorem witness_OutputIsAppendOnly : (∃ t, exec (.prn 7) State.reset = .next t ∧ t.out = [0xFF]) ∧
    ∃ t, exec (.prn 8) State.reset = .next t ∧ t.out = [] :=
  ⟨⟨_, rfl, by decide⟩, ⟨_, rfl, by decide⟩⟩

/-- The highest and the lowest address a push can change. -/
theorem witness_MemoryWrittenOnlyByPushAndCall :
    (∃ t, stepWith .speculative (boot 0 [0x50#8, 0] 0 0 0xFF) = .next t ∧ t.mem.read 254 ≠ (boot 0 [0x50#8, 0] 0 0 0xFF).mem.read 254) ∧
    (∃ t, stepWith .speculative (boot 0 [0x45#8, 0] 9 0 1) = .next t ∧ t.mem.read 0 ≠ (boot 0 [0x45#8, 0] 9 0 1).mem.read 0) ∧
    (boot 0 [0x45#8, 0] 9 0 1).mem.wf = true :=
  ⟨⟨_, rfl, by decide⟩, ⟨_, rfl, by decide⟩, by decide⟩

/-- A POP whose memory is replaced by another that agrees at the fetch addresses and at the stack pointer alone. -/
theorem witness_MemoryReadFootprint :
    (∃ t, step { boot 0 [0x46#8, 1] 0 0 0x80 with mem := [(0, 0x46), (1, 1), (0x80, 5)] } = .next t) ∧
    Memory.read [(0, 0x46), (1, 1), (0x80, 5), (0x81, 6)] 0x80 = Memory.read [(0, 0x46), (1, 1), (0x80, 5)] 0x80 :=
  ⟨⟨_, rfl⟩, by decide⟩

theorem witness_RegistersChangeOnlyAsListed :
    (∃ t, exec (.pop 7) State.reset = .next t ∧ t.sp ≠ State.reset.sp) ∧
    (∃ t, exec .ret (boot 0 [] 0 0 0xFE) = .next t ∧ t.sp ≠ (boot 0 [] 0 0 0xFE).sp) ∧
    ∃ t, exec (.push 0) (boot 0 [] 0 0 1) = .next t ∧ t.sp ≠ (boot 0 [] 0 0 1).sp :=
  ⟨⟨_, rfl, by decide⟩, ⟨_, rfl, by decide⟩, ⟨_, rfl, by decide⟩⟩

theorem witness_FetchPoliciesAgreeBelow254 : (pcAt 253).pc.toNat ≤ 253 := by decide

theorem witness_SpeculativeFaultsWhereLazyFaults :
    (∃ t, stepWith .lazy (pcAt 255) = .next t ∧ t.fault ≠ none) ∧
    ((boot 254 [0x01#8] 0 0 0).mem.read 254 = 0x01#8 ∧ (boot 255 [0x01#8] 0 0 0).mem.read 255 = 0x01#8) ∧
    ((boot 254 [0x50#8, 7] 0 0 0).mem.read 254 = 0x50#8 ∧ ((boot 254 [0x50#8, 7] 0 0 0).mem.read 255).toNat < 8) ∧
    (boot 254 [0x50#8, 7] 0 0 0).Running :=
  ⟨⟨_, rfl, by decide⟩, by decide, by decide, ⟨rfl, rfl⟩⟩

theorem witness_SpeculativeRunsAreLazyRuns :
    ∃ t, Host.Core.run (coreWith .speculative) 2 (boot 0 [0x82#8, 0, 5, 0x01#8] 0 0 0) = .next t ∧ t.fault = none :=
  ⟨_, rfl, by decide⟩

theorem witness_ResetState : ∃ s, State.load [0x01#8] = .ok s := ⟨_, rfl⟩

theorem witness_FlagsAtResetAreClear : (7#8).toNat < 8 ∧ (pcAt 254).flags = State.reset.flags ∧ (pcAt 254).pc.toNat ≤ 254 := by
  decide

theorem witness_LoaderPlacesProgram : (List.replicate 256 (0x01#8)).length ≤ 256 ∧ 256 < (List.replicate 257 (0x01#8)).length := by
  rw [List.length_replicate, List.length_replicate]; omega

/-- Reads and writes at the last address that exists and at the first that does not, from canonical memory. -/
theorem witness_MemoryAccessContract : State.reset.mem.wf = true ∧ 255 ≤ 255 ∧ 255 < 256 := by decide

/-- A pushed byte fetched as the opcode, as the first operand byte and as the second, `pc` at its highest each time. -/
theorem witness_PushedByteIsWhatIsFetched : ∃ s t : State, exec (.push 0) s = .next t ∧ t.fault = none ∧ s.mem.wf = true ∧
    t.stackSlot = 253 ∧ ∀ k < 3, ∃ u : State, u.mem = t.mem ∧ u.Running ∧ u.pc.toNat + k = t.stackSlot ∧ u.pc.toNat ≤ 253 := by
  refine ⟨boot 0 [0x45#8, 0] 1 0 0xFE, _, rfl, by decide, by decide, by decide, fun k hk => ?_⟩
  rcases k with _ | _ | _ | k
  · exact ⟨{ pcAt 253 with mem := [(0, 0x45), (253, 1)] }, by decide, ⟨rfl, rfl⟩, by decide, by decide⟩
  · exact ⟨{ pcAt 252 with mem := [(0, 0x45), (253, 1)] }, by decide, ⟨rfl, rfl⟩, by decide, by decide⟩
  · exact ⟨{ pcAt 251 with mem := [(0, 0x45), (253, 1)] }, by decide, ⟨rfl, rfl⟩, by decide, by decide⟩
  · omega

/-- The highest cell a push can reach, fetched as an operand at the highest `pc`. -/
theorem witness_PushedByteIsWhatIsFetched_top : ∃ s t u : State, exec (.push 7) s = .next t ∧ t.fault = none ∧
    s.mem.wf = true ∧ t.stackSlot = 254 ∧ u.mem = t.mem ∧ u.Running ∧ u.pc.toNat + 1 = t.stackSlot ∧ u.pc.toNat = 253 :=
  ⟨boot 0 [] 0 0 0xFF, _, { pcAt 253 with mem := [(254, 0xFE)] }, rfl, by decide, by decide, by decide, by decide, ⟨rfl, rfl⟩,
    by decide, by decide⟩

theorem witness_CalledByteIsWhatIsFetched : ∃ (s t u : State), exec (.call 7) s = .next t ∧ t.fault = none ∧ u.mem = t.mem ∧
    u.Running ∧ u.pc.toNat = t.stackSlot ∧ u.pc.toNat ≤ 253 ∧ s.mem.wf = true :=
  ⟨boot 253 [0x50#8, 7] 0 0 0x80, _, { boot 0 [] 0 0 0x7F with pc := 0x7F, mem := [(0x7F, 255), (253, 0x50), (254, 7)] }, rfl,
    by decide, by decide, ⟨rfl, rfl⟩, by decide, by decide, by decide⟩

/-! Instruction statements: operands legal at 0 and 7, bad at 8; `pc` at the highest value of each premise. -/

theorem witness_LdiLoadsImmediate : (0#8).toNat < 8 ∧ (7#8).toNat < 8 ∧ 8 ≤ (8#8).toNat ∧ (pcAt 253).pc.toNat = 253 := by
  decide

theorem witness_MulMultipliesMod256 : (0#8).toNat < 8 ∧ (7#8).toNat < 8 ∧ 8 ≤ (8#8).toNat ∧ (pcAt 253).pc.toNat = 253 := by
  decide

theorem witness_AddAddsMod256 : (0#8).toNat < 8 ∧ (7#8).toNat < 8 ∧ 8 ≤ (8#8).toNat ∧ (pcAt 253).pc.toNat = 253 := by
  decide

theorem witness_CmpSetsExactlyOneFlag : (0#8).toNat < 8 ∧ (7#8).toNat < 8 ∧ 8 ≤ (8#8).toNat ∧ (pcAt 253).pc.toNat = 253 := by
  decide

theorem witness_ArithmeticAgreesWithSignedReading : (0#8).toNat < 8 ∧ (7#8).toNat < 8 ∧ 8 ≤ (8#8).toNat ∧ (pcAt 253).pc.toNat = 253 := by
  decide

theorem witness_PrnEmitsRegister : (0#8).toNat < 8 ∧ (7#8).toNat < 8 ∧ 8 ≤ (8#8).toNat ∧ (pcAt 254).pc.toNat = 254 := by
  decide

theorem witness_JmpGoesToRegister : (0#8).toNat < 8 ∧ (7#8).toNat < 8 ∧ 8 ≤ (8#8).toNat := by decide

theorem witness_JeqJumpsWhenEqual : (0#8).toNat < 8 ∧ (7#8).toNat < 8 ∧ 8 ≤ (8#8).toNat ∧ (pcAt 254).pc.toNat = 254 ∧
    State.reset.flags.e = false ∧ ({ State.reset with flags := ⟨false, false, true⟩ } : State).flags.e = true := by
  decide

theorem witness_JneJumpsWhenNotEqual : (0#8).toNat < 8 ∧ (7#8).toNat < 8 ∧ 8 ≤ (8#8).toNat ∧ (pcAt 254).pc.toNat = 254 ∧
    State.reset.flags.e = false ∧ ({ State.reset with flags := ⟨false, false, true⟩ } : State).flags.e = true := by
  decide

theorem witness_HltHalts : ∃ t, exec .hlt (pcAt 255) = .next t ∧ (pcAt 255).halted = false ∧ t.halted = true :=
  ⟨_, rfl, rfl, by decide⟩

theorem witness_PushStoresBelowStackPointer : (boot 254 [] 0 0 1).sp ≠ 0#8 ∧ (boot 254 [] 0 0 1).mem.wf = true ∧
    (boot 254 [] 0 0 0).sp = 0#8 := by decide

theorem witness_PopLoadsFromStackPointer :
    (if (6#8 : Byte) = 7#8 then (boot 254 [] 0 0 0xFE).mem.read (boot 254 [] 0 0 0xFE).stackSlot else (boot 254 [] 0 0 0xFE).sp) ≠ 0xFF#8 ∧
    (if (7#8 : Byte) = 7#8 then (boot 254 [] 0 0 0xFF).mem.read (boot 254 [] 0 0 0xFF).stackSlot else (boot 254 [] 0 0 0xFF).sp) ≠ 0xFF#8 ∧
    (if (6#8 : Byte) = 7#8 then (boot 254 [] 0 0 0xFF).mem.read (boot 254 [] 0 0 0xFF).stackSlot else (boot 254 [] 0 0 0xFF).sp) = 0xFF#8 := by
  decide

theorem witness_CallPushesReturnAddress : (boot 253 [] 0 0 1).sp ≠ 0#8 ∧ (boot 253 [] 0 0 1).mem.wf = true ∧
    (boot 253 [] 0 0 0).sp = 0#8 ∧ (boot 253 [] 0 0 1).pc.toNat ≤ 253 ∧ (pcAt 254).pc.toNat = 254 := by decide

theorem witness_RetPopsIntoPc : (boot 0 [] 0 0 0xFE).sp ≠ 0xFF#8 ∧ (boot 0 [] 0 0 0xFF).sp = 0xFF#8 := by decide

theorem witness_AluAppliesOnlyItsOperations : Opcode.hlt ∉ [Opcode.add, Opcode.mul, Opcode.cmp] ∧
    Opcode.cmp ∈ [Opcode.add, Opcode.mul, Opcode.cmp] := by decide

theorem witness_CompareThenConditionalJump : (pcAt 251).pc.toNat ≤ 251 ∧ (7#8).toNat < 8 := by decide

theorem witness_PushThenPopRestores : (boot 252 [] 0 0 1).sp ≠ 0#8 ∧ (boot 252 [] 0 0 1).pc.toNat ≤ 252 ∧
    (boot 252 [] 0 0 1).mem.wf = true := by decide

theorem witness_MatchingRetReturns : ∃ (s t u : State), s.mem.wf = true ∧ s.fault = none ∧ exec (.call 0) s = .next t ∧
    t.fault = none ∧ u.sp = t.sp ∧ u.mem.read u.stackSlot = t.mem.read t.stackSlot ∧ u.pc ≠ t.pc :=
  ⟨boot 253 [] 9 0 0xFF, _, { boot 20 [] 0 0 0xFE with mem := [(0xFE, 255)] }, by decide, rfl, rfl, by decide, by decide, by decide,
    by decide⟩

/-- A sequential instruction that ends at 256, a jump to 255, JEQ with E clear and JNE taken, CALL R7 and RET. -/
theorem witness_ControlTargetsAreBytes :
    (∃ t, stepWith .speculative (boot 253 [0xA0#8, 0, 1] 0 0 0) = .next t ∧ t.fault = none ∧ t.pc.toNat = 256) ∧
    (∃ t, stepWith .lazy (boot 254 [0x54#8, 7] 0 0 0xFF) = .next t ∧ t.fault = none ∧ t.pc.toNat = 255) ∧
    (∃ t, stepWith .lazy (boot 254 [0x55#8, 7] 0 0 0xFF) = .next t ∧ t.fault = none ∧ t.pc.toNat = 256) ∧
    (∃ t, stepWith .speculative (boot 0 [0x56#8, 7] 0 0 0xFF) = .next t ∧ t.fault = none ∧ t.pc.toNat = 255) ∧
    (∃ t, stepWith .speculative (boot 0 [0x50#8, 7] 0 0 0xFF) = .next t ∧ t.fault = none ∧ t.pc.toNat = 254) ∧
    ∃ t, stepWith .speculative (boot 0 [0x11#8] 0 0 0) = .next t ∧ t.fault = none ∧ t.pc.toNat = 0x11 :=
  ⟨⟨_, rfl, by decide, by decide⟩, ⟨_, rfl, by decide, by decide⟩, ⟨_, rfl, by decide, by decide⟩,
    ⟨_, rfl, by decide, by decide⟩, ⟨_, rfl, by decide, by decide⟩, ⟨_, rfl, by decide, by decide⟩⟩

theorem witness_HostExitStatus : State.reset.Running ∧ (∃ s : State, s.halted = true) ∧
    ∃ (s : State) (r : FaultRecord), s.halted = false ∧ s.fault = some r :=
  ⟨⟨rfl, rfl⟩, ⟨{ State.reset with halted := true }, rfl⟩, ⟨{ State.reset with fault := some ⟨.stackOverflow 0, 0⟩ }, _, rfl, rfl⟩⟩

end Sys2Proof.Tests
end

/-! ## Proofs about the state (10_state.md)

The settled statements of 10_state.md come last; before them stand the facts they share. -/

namespace Sys2Proof.Machine

/-! ### The fault an instruction takes -/

/-- The first check of an instruction that fails, if one does: a bad register operand, then CALL's return address, then
the stack bound. -/
def State.raises (s : State) (i : Instr) : Option FaultCause :=
  ((firstBadOperand i).map .outOfRangeRegister).or ((s.returnFault i).or (s.stackFault i))

theorem State.outcome_eq_raises (s : State) (i : Instr) :
    s.outcome i = (s.raises i).elim (s.effect i) s.takeFault := by
  unfold State.outcome State.raises
  cases firstBadOperand i with
  | some v => rfl
  | none =>
    cases s.returnFault i with
    | some c => rfl
    | none => cases s.stackFault i <;> rfl

theorem exec_of_raises_some {s : State} {i : Instr} {c : FaultCause} (h : s.raises i = some c) :
    exec i s = .next (s.takeFault c) := by
  rw [exec_eq, State.outcome_eq_raises, h, Option.elim_some]

theorem exec_of_raises_none {s : State} {i : Instr} (h : s.raises i = none) : exec i s = .next (s.effect i) := by
  rw [exec_eq, State.outcome_eq_raises, h, Option.elim_none]

/-- An instruction takes the fault of its first failing check, or completes where none fails. -/
theorem exec_raises_cases {i : Instr} {s t : State} (h : exec i s = .next t) :
    (∃ c, s.raises i = some c ∧ t = s.takeFault c) ∨ (s.raises i = none ∧ t = s.effect i) := by
  cases hr : s.raises i with
  | some c => exact .inl ⟨c, rfl, by simpa [exec_of_raises_some hr] using h.symm⟩
  | none => exact .inr ⟨rfl, by simpa [exec_of_raises_none hr] using h.symm⟩

@[simp] theorem State.raises_hlt (s : State) : s.raises .hlt = none := rfl

/-- An instruction with the one register operand `a`, no return address and no stack access fails no check where `a`
names a register. -/
theorem State.raises_of_one_operand {s : State} {i : Instr} {a : Byte} (ho : i.regOperands = [a]) (ha : a.toNat < 8)
    (hr : s.returnFault i = none) (hs : s.stackFault i = none) : s.raises i = none := by
  simp [State.raises, firstBadOperand_one ho, Nat.not_le.2 ha, hr, hs]

/-- No check reads the flags. -/
@[simp] theorem State.raises_setFlags (s : State) (f : Flags) (i : Instr) : (s.setFlags f).raises i = s.raises i := by
  cases i <;> rfl

/-! ### The flags (R26) -/

/-- The effect of an instruction carries the start state's flags along unread, but for CMP, which replaces them, and for
JEQ and JNE, which read `E`. -/
theorem State.effect_setFlags {s : State} {i : Instr} {f : Flags} (hcmp : ∀ a b, i ≠ .cmp a b)
    (hread : (∀ a, i ≠ .jeq a ∧ i ≠ .jne a) ∨ f.e = s.flags.e) :
    (s.setFlags f).effect i = (s.effect i).setFlags f := by
  cases i with
  | cmp a b => exact absurd rfl (hcmp a b)
  | jeq a | jne a =>
    have he : f.e = s.flags.e := hread.resolve_left fun h => by simpa using h a
    cases hse : s.flags.e <;> simp only [State.effect, State.setFlags_flags, he, hse] <;> rfl
  | _ => rfl

/-- CMP's effect does not depend on the flags it replaces. -/
theorem State.effect_cmp_setFlags (s : State) (f : Flags) (a b : Byte) :
    (s.setFlags f).effect (.cmp a b) = s.effect (.cmp a b) := rfl

/-- A completed instruction other than CMP leaves the flags. -/
theorem State.effect_flags_of_ne_cmp {s : State} {i : Instr} (hcmp : ∀ a b, i ≠ .cmp a b) :
    (s.effect i).flags = s.flags := by
  obtain h | ⟨a, b, _, _, rfl, -⟩ := s.effect_flags i
  · exact h
  · exact absurd rfl (hcmp a b)

/-- From other flags an instruction that does not see the difference ends in the same state but for its flags. -/
theorem exec_setFlags {i : Instr} {s t : State} {f : Flags}
    (hread : (∀ a, i ≠ .jeq a ∧ i ≠ .jne a) ∨ f.e = s.flags.e) (h : exec i s = .next t) :
    ∃ u, exec i (s.setFlags f) = .next u ∧ u.setFlags t.flags = t ∧
      ((u.flags = f ∧ t.flags = s.flags) ∨ (u.flags = t.flags ∧ ∃ a b, i = .cmp a b)) := by
  obtain ⟨c, hr, rfl⟩ | ⟨hr, rfl⟩ := exec_raises_cases h
  · exact ⟨_, exec_of_raises_some (by rwa [State.raises_setFlags]), rfl, .inl ⟨rfl, rfl⟩⟩
  · refine ⟨_, exec_of_raises_none (by rwa [State.raises_setFlags]), ?_⟩
    by_cases hcmp : ∃ a b, i = .cmp a b
    · obtain ⟨a, b, rfl⟩ := hcmp
      exact ⟨rfl, .inr ⟨rfl, a, b, rfl⟩⟩
    · have hne : ∀ a b, i ≠ .cmp a b := fun a b hi => hcmp ⟨a, b, hi⟩
      rw [State.effect_setFlags hne hread]
      exact ⟨rfl, .inl ⟨rfl, State.effect_flags_of_ne_cmp hne⟩⟩

/-- A step leaves the flags, or it fetched a CMP and they are those of a comparison. -/
theorem stepWith_flags {p : FetchPolicy} {s t : State} (h : stepWith p s = .next t) :
    t.flags = s.flags ∨ ∃ a b u v, s.fetch p = .ok (.cmp a b) ∧ t.flags = Flags.compare u v := by
  obtain ⟨-, ⟨c, -, rfl⟩ | ⟨i, hf, hx⟩⟩ := stepWith_cases h
  · exact .inl rfl
  · obtain ⟨c, -, rfl⟩ | ⟨-, rfl⟩ := exec_raises_cases hx
    · exact .inl rfl
    · obtain he | ⟨a, b, u, v, rfl, he⟩ := s.effect_flags i
      · exact .inl he
      · exact .inr ⟨a, b, u, v, hf, he⟩

/-- A comparison sets exactly one flag. -/
theorem Flags.compare_exactlyOne (u v : Byte) :
    (Flags.compare u v).l.toNat + (Flags.compare u v).g.toNat + (Flags.compare u v).e.toNat = 1 := by
  obtain ⟨-, -, -, h⟩ := Flags.compare_spec u v
  exact h

theorem Flags.compare_atMostOne (u v : Byte) : (Flags.compare u v).atMostOne = true := by
  simp [Flags.atMostOne, Flags.compare_exactlyOne]

/-! ### `halted` (R28) -/

/-- An instruction ends halted exactly where it started halted or is HLT, which raises nothing. -/
theorem exec_halted_iff {i : Instr} {s t : State} (h : exec i s = .next t) :
    t.halted = true ↔ s.halted = true ∨ i = .hlt := by
  obtain ⟨c, hr, rfl⟩ | ⟨-, rfl⟩ := exec_raises_cases h
  · have hi : i ≠ .hlt := by
      rintro rfl
      simp at hr
    simp [hi]
  · exact s.effect_halted i

theorem State.runState_of_halted {s : State} (h : s.halted = true) : s.runState = .halted := by
  simp [State.runState, h]

/-- A halted machine takes no step, whatever its fault record. -/
theorem stepWith_of_halted {p : FetchPolicy} {s : State} (h : s.halted = true) :
    stepWith p s = .fault .stepWhileHalted := by
  simp [stepWith, State.runState_of_halted h]

/-! ### The output stream (R31) -/

/-- The state with values put before its output. -/
def State.prependOut (s : State) (o : List Byte) : State := { s with out := o ++ s.out }

/-- No check reads the output. -/
@[simp] theorem State.raises_prependOut (s : State) (o : List Byte) (i : Instr) :
    (s.prependOut o).raises i = s.raises i := by
  cases i <;> rfl

/-- Every effect carries earlier output along unread; PRN's appends behind it. -/
theorem State.effect_prependOut (s : State) (o : List Byte) (i : Instr) :
    (s.prependOut o).effect i = (s.effect i).prependOut o := by
  cases i with
  | prn a =>
    simp only [State.effect, State.prependOut, State.advance, State.output, State.readReg, List.append_assoc]
  | jeq a | jne a => cases h : s.flags.e <;> simp only [State.effect, State.prependOut, h] <;> rfl
  | _ => rfl

/-- Earlier output does not influence an instruction. -/
theorem exec_prependOut {i : Instr} {s t : State} (o : List Byte) (h : exec i s = .next t) :
    exec i (s.prependOut o) = .next (t.prependOut o) := by
  obtain ⟨c, hr, rfl⟩ | ⟨hr, rfl⟩ := exec_raises_cases h
  · exact exec_of_raises_some (by rwa [State.raises_prependOut])
  · rw [exec_of_raises_none (by rwa [State.raises_prependOut]), State.effect_prependOut]

/-- A completed instruction other than PRN leaves the output. -/
theorem State.effect_out_of_ne_prn {s : State} {i : Instr} (hprn : ∀ a, i ≠ .prn a) : (s.effect i).out = s.out := by
  cases i with
  | prn a => exact absurd rfl (hprn a)
  | jeq a | jne a => cases h : s.flags.e <;> simp [State.effect, h]
  | _ => rfl

/-- PRN with a legal operand completes with the register's value appended. -/
theorem exec_prn_of_lt {a : Byte} (ha : a.toNat < 8) (s : State) :
    exec (.prn a) s = .next ((s.output (s.readReg ⟨a.toNat, ha⟩)).advance 2) := by
  rw [exec_of_raises_none (State.raises_of_one_operand rfl ha rfl rfl)]
  simp only [State.effect, reg_of_lt ha]

/-- PRN with a bad operand faults. -/
theorem exec_prn_of_ge {a : Byte} (ha : 8 ≤ a.toNat) (s : State) :
    exec (.prn a) s = .next (s.takeFault (.outOfRangeRegister a)) :=
  exec_of_raises_some (by simp [State.raises, firstBadOperand_one (i := .prn a) rfl, ha])

/-- An instruction other than PRN leaves the output, whether it completes or raises. -/
theorem exec_out_of_ne_prn {i : Instr} {s t : State} (h : exec i s = .next t) (hprn : ∀ a, i ≠ .prn a) :
    t.out = s.out := by
  obtain ⟨c, -, rfl⟩ | ⟨-, rfl⟩ := exec_raises_cases h
  · rfl
  · exact State.effect_out_of_ne_prn hprn

/-- A step that raises is fault entry from the state it started in. -/
theorem stepWith_fault {p : FetchPolicy} {s t : State} (h : stepWith p s = .next t) (hf : t.fault ≠ none) :
    ∃ c, t = s.takeFault c := by
  obtain ⟨⟨-, hs⟩, ⟨c, -, rfl⟩ | ⟨i, -, hx⟩⟩ := stepWith_cases h
  · exact ⟨c, rfl⟩
  · obtain ⟨c, -, rfl⟩ | ⟨-, rfl⟩ := exec_raises_cases hx
    · exact ⟨c, rfl⟩
    · exact absurd ((s.effect_fault i).trans hs) hf

/-! ### The loader (R201) -/

/-- Loading a byte and more bytes: the byte is stored at an address that exists, then the others behind it. -/
theorem State.loadBytes_cons {s t : State} {a : Nat} {b : Byte} {bs : List Byte}
    (h : s.loadBytes a (b :: bs) = .ok t) :
    a < 256 ∧ (s.setMem (s.mem.write a b)).loadBytes (a + 1) bs = .ok t := by
  rw [State.loadBytes] at h
  rcases Nat.lt_or_ge a 256 with ha | ha
  · rw [s.memWrite_of_lt ha, except_bind_ok] at h
    exact ⟨ha, h⟩
  · rw [s.memWrite_of_ge ha, except_bind_error] at h
    simp at h

/-- The loader touches nothing but memory. -/
theorem State.loadBytes_frame {s t : State} {a : Nat} {bs : List Byte} (h : s.loadBytes a bs = .ok t) :
    t = s.setMem t.mem := by
  induction bs generalizing s a with
  | nil =>
    obtain rfl : s = t := by simpa [State.loadBytes] using h
    rfl
  | cons b bs ih =>
    have ht := ih (State.loadBytes_cons h).2
    exact ht

/-- What a cell reads after loading `bs` from address `a` on: below `a` and past the last byte as before, else its
byte. -/
theorem State.read_loadBytes {s t : State} {a : Nat} {bs : List Byte} (hm : s.mem.wf = true)
    (h : s.loadBytes a bs = .ok t) (k : Nat) :
    t.mem.read k = if k < a then s.mem.read k else (bs[k - a]?).getD (s.mem.read k) := by
  induction bs generalizing s a with
  | nil =>
    obtain rfl : s = t := by simpa [State.loadBytes] using h
    simp
  | cons b bs ih =>
    obtain ⟨ha, h⟩ := State.loadBytes_cons h
    rw [ih (Memory.wf_write hm ha b) h, State.setMem_mem, Memory.read_write hm]
    rcases Nat.lt_trichotomy k a with hk | rfl | hk
    · rw [if_pos (by omega), if_neg (by omega), if_pos hk]
    · simp
    · have hidx : k - a = k - (a + 1) + 1 := by omega
      rw [if_neg (by omega), if_neg (by omega), if_neg (by omega), hidx, List.getElem?_cons_succ]

theorem State.loadBytes_of_load {program : List Byte} {s : State} (h : State.load program = .ok s) :
    State.reset.loadBytes 0 program = .ok s := by
  unfold State.load at h
  cases hl : State.reset.loadBytes Config.loadBase program with
  | ok u =>
    obtain rfl : u = s := by simpa [hl] using h
    exact hl
  | error c => simp [hl] at h

/-- A loaded program stands at the addresses from 0 on, and 0x00 in every other cell. -/
theorem State.read_load {program : List Byte} {s : State} (h : State.load program = .ok s) (k : Nat) :
    s.mem.read k = (program[k]?).getD 0x00#8 :=
  State.read_loadBytes State.reset_mem_wf (State.loadBytes_of_load h) k

/-! ### The conditional jumps (R153, R154) -/

theorem exec_jeq_of_clear {a : Byte} (ha : a.toNat < 8) {s : State} (he : s.flags.e = false) :
    exec (.jeq a) s = .next (s.advance 2) := by
  rw [exec_of_raises_none (State.raises_of_one_operand rfl ha rfl rfl)]
  simp [State.effect, he]

theorem exec_jne_of_clear {a : Byte} (ha : a.toNat < 8) {s : State} (he : s.flags.e = false) :
    exec (.jne a) s = .next (s.jump (s.readReg ⟨a.toNat, ha⟩)) := by
  rw [exec_of_raises_none (State.raises_of_one_operand rfl ha rfl rfl)]
  simp [State.effect, he, reg_of_lt ha]

end Sys2Proof.Machine

namespace Sys2Proof.Proofs

open Sys2Proof.Machine

/-- Settles O25: the table is read off the reset state; what a loaded program leaves in memory is `State.read_load`. -/
theorem resetState : Obligations.ResetState := by
  refine ⟨by decide, rfl, rfl, rfl, fun _ => rfl, rfl, rfl, fun program s h => ⟨?_, fun k hk => ?_, fun k hk => ?_⟩⟩
  · rw [State.loadBytes_frame (State.loadBytes_of_load h)]
    rfl
  · rw [State.read_load h, List.getElem?_eq_getElem hk, Option.getD_some]
  · rw [State.read_load h, List.getElem?_eq_none hk, Option.getD_none]

/-- Settles O26: `E` is clear, so JEQ advances by two and JNE jumps. -/
theorem flagsAtResetAreClear : Obligations.FlagsAtResetAreClear := by
  refine ⟨rfl, fun a ha s hs hpc => ?_⟩
  have he : s.flags.e = false := by rw [hs]; rfl
  exact ⟨_, _, exec_jeq_of_clear ha he, toNat_advance (by omega), exec_jne_of_clear ha he, toNat_target _⟩

/-- Settles O16: `stepWith_flags` says who writes the flags, `exec_setFlags` who reads them. -/
theorem flagsWrittenByCmpReadByConditionalJumps : Obligations.FlagsWrittenByCmpReadByConditionalJumps := by
  refine ⟨fun p s t h hne => ?_, fun i s t f hread h => exec_setFlags hread h, ⟨rfl, rfl, rfl⟩, fun p s t h hone => ?_⟩
  · obtain heq | ⟨a, b, u, v, hf, ht⟩ := stepWith_flags h
    · exact absurd heq hne
    · exact ⟨a, b, hf, ht ▸ Flags.compare_exactlyOne u v⟩
  · obtain heq | ⟨a, b, u, v, -, ht⟩ := stepWith_flags h
    · rwa [heq]
    · exact ht ▸ Flags.compare_atMostOne u v

/-- Settles O17: a step starts running, so one that ends halted executed HLT (`exec_halted_iff`). -/
theorem haltedSetOnlyByHlt : Obligations.HaltedSetOnlyByHlt := by
  refine ⟨rfl, fun p s t h ht => ?_, fun i s t h => exec_halted_iff h,
    fun p s hs => ⟨State.runState_of_halted hs, by simp [stepWith_of_halted hs]⟩⟩
  obtain ⟨⟨hs, -⟩, ⟨c, -, rfl⟩ | ⟨i, hf, hx⟩⟩ := stepWith_cases h
  · simp [hs] at ht
  · obtain hs' | rfl := (exec_halted_iff hx).1 ht
    · simp [hs] at hs'
    · exact hf

/-- Settles O18: PRN by its operand (`exec_prn_of_lt`, `exec_prn_of_ge`), every other instruction by
`exec_out_of_ne_prn`; nothing reads the output by `exec_prependOut`. -/
theorem outputIsAppendOnly : Obligations.OutputIsAppendOnly := by
  refine ⟨rfl, fun i s t h => ?_, fun a ha s => ⟨_, exec_prn_of_lt ha s, rfl, rfl⟩, fun p s t h hf => ?_,
    fun i s t o h => exec_prependOut o h⟩
  · by_cases hprn : ∃ a, i = .prn a
    · obtain ⟨a, rfl⟩ := hprn
      rcases Nat.lt_or_ge a.toNat 8 with ha | ha
      · rw [exec_prn_of_lt ha] at h
        cases h
        exact .inr ⟨a, ha, rfl, rfl⟩
      · rw [exec_prn_of_ge ha] at h
        cases h
        refine .inl ⟨rfl, fun b hb => ?_⟩
        cases hb
        exact ha
    · have hne : ∀ a, i ≠ .prn a := fun a ha => hprn ⟨a, ha⟩
      exact .inl ⟨exec_out_of_ne_prn h hne, fun a ha => absurd ha (hne a)⟩
  · obtain ⟨c, rfl⟩ := stepWith_fault h hf
    rfl

end Sys2Proof.Proofs

namespace Sys2Proof.Proofs

open Sys2Proof.Machine

/-- Settles O29: below 256 an access answers (`State.memRead_of_lt`, `State.memWrite_of_lt`) and the memory laws say what
the cells then read; from 256 on it raises. -/
theorem memoryAccessContract : Obligations.MemoryAccessContract := by
  refine fun s a v hm => ⟨fun ha => ?_, fun ha => ⟨s.memRead_of_ge ha, s.memWrite_of_ge ha v⟩⟩
  have hlt : a < 256 := Nat.lt_succ_of_le ha
  exact ⟨s.memRead_of_lt hlt, _, s.memWrite_of_lt hlt v, rfl, Memory.wf_write hm hlt v,
    fun b => Memory.read_write hm a b v⟩

end Sys2Proof.Proofs

/-! ## Proofs about the encoding (30_encoding.md)

The settled statements of 30_encoding.md come last; before them stand the facts they share. -/

namespace Sys2Proof

/-- The table lists every row. -/
@[simp] theorem Opcode.mem_all (o : Opcode) : o ∈ Opcode.all := by
  cases o <;> decide

/-- No byte appears twice in the table (R72). -/
theorem Opcode.nodup_bytes : (Opcode.all.map fun o => o.byte.toNat).Nodup := by
  decide

theorem Opcode.ofByte_eq_none_iff {b : Byte} : Opcode.ofByte b = none ↔ ∀ o : Opcode, o.byte ≠ b := by
  simp [Opcode.ofByte]

theorem Opcode.isSome_ofByte_iff {b : Byte} : (Opcode.ofByte b).isSome ↔ ∃ o : Opcode, o.byte = b := by
  simp [Option.isSome_iff_exists, Opcode.ofByte_eq_some_iff]

/-- The encoding of an assembled instruction is its own prefix of the three fetched bytes: the bytes beyond its length
are dropped (R78). -/
theorem encode_assemble (o : Opcode) (opa opb : Byte) :
    encode (o.assemble opa opb) = [o.byte, opa, opb].take (o.assemble opa opb).length := by
  cases o <;> rfl

/-- Whether the byte with value `n` is recognized (R75). -/
def recognized (n : Nat) : Bool := (Opcode.ofByte (BitVec.ofNat 8 n)).isSome

/-- The byte values that decode are, in some order, the bytes of the table. -/
theorem filter_recognized_perm :
    ((List.range 256).filter recognized).Perm (Opcode.all.map fun o => o.byte.toNat) := by
  rw [List.perm_ext_iff_of_nodup (List.nodup_range.filter _) Opcode.nodup_bytes]
  intro n
  simp only [List.mem_filter, List.mem_range, List.mem_map, Opcode.mem_all, true_and, recognized, Opcode.isSome_ofByte_iff]
  constructor
  · rintro ⟨hn, o, ho⟩
    exact ⟨o, by rw [ho, BitVec.toNat_ofNat, Nat.mod_eq_of_lt hn]⟩
  · rintro ⟨o, rfl⟩
    exact ⟨o.byte.isLt, o, by simp⟩

theorem length_filter_recognized : ((List.range 256).filter recognized).length = 13 :=
  filter_recognized_perm.length_eq

/-- The bytes that do not decode are the rest of the 256. -/
theorem length_filter_not_recognized : ((List.range 256).filter fun n => !recognized n).length = 243 := by
  have htotal := List.length_eq_length_filter_add (l := List.range 256) recognized
  rw [List.length_range, length_filter_recognized] at htotal
  omega

end Sys2Proof

namespace Sys2Proof.Machine

/-- A running machine whose speculative fetch reads an unrecognized byte takes the fault of R75. -/
theorem step_of_ofByte_eq_none {s : State} (hs : s.Running) (hpc : s.pc.toNat ≤ 253)
    (hb : Opcode.ofByte (s.mem.read s.pc.toNat) = none) :
    step s = .next (s.Faulted (.unrecognizedOpcode (s.mem.read s.pc.toNat))) := by
  have hf : s.fetch hardwarePolicy = .error (.unrecognizedOpcode (s.mem.read s.pc.toNat)) := by
    show s.fetchSpeculative = _
    rw [State.fetchSpeculative_of_le hpc, decodeBytes_eq_none_iff.2 hb]
  simp only [step, stepWith_of_running hs, hf, State.takeFault_eq]

end Sys2Proof.Machine

namespace Sys2Proof.Proofs

open Sys2Proof.Machine

/-- Settles O1: the rows are read off the table's definition; each byte finds its row by `Opcode.ofByte_byte`. -/
theorem opcodeMapIsBitExact : Obligations.OpcodeMapIsBitExact :=
  ⟨rfl, Opcode.mem_all, Opcode.ofByte_byte⟩

/-- Settles O4: by the row the first byte selects, if any; the recognized values are counted as the bytes of the table,
the others as the rest of the 256. -/
theorem thirteenBytesDecode : Obligations.ThirteenBytesDecode := by
  refine ⟨fun ir opa opb => ?_, fun o opa opb => ?_, length_filter_recognized, ?_, fun s hs hpc hb => ?_⟩
  · cases ho : Opcode.ofByte ir with
    | some o =>
      obtain rfl := Opcode.byte_of_ofByte ho
      exact .inl ⟨_, decodeBytes_eq_some_iff.2 ⟨o, ho, rfl⟩, encode_assemble o opa opb⟩
    | none => exact .inr ⟨decodeBytes_eq_none_iff.2 ho, Opcode.ofByte_eq_none_iff.1 ho⟩
  · exact ⟨_, decodeBytes_eq_some_iff.2 ⟨o, Opcode.ofByte_byte o, rfl⟩, Opcode.assemble_opcode o opa opb⟩
  · simpa only [recognized, Option.not_isSome] using length_filter_not_recognized
  · exact step_of_ofByte_eq_none hs hpc (Opcode.ofByte_eq_none_iff.2 hb)

end Sys2Proof.Proofs

/-! ## Proofs about fetch, decode and execute (40_fetch_decode_execute.md)

The settled statements of 40_fetch_decode_execute.md come last; before them stand the facts they share. -/

namespace Sys2Proof.Machine

/-- A running machine whose fetch or decode raises takes that fault (R97). -/
theorem stepWith_of_fetch_error {p : FetchPolicy} {s : State} {c : FaultCause} (hs : s.Running)
    (hf : s.fetch p = .error c) : stepWith p s = .next (s.takeFault c) := by
  rw [stepWith_of_running hs, hf]

/-- A running machine executes the instruction its fetch hands on (R94). -/
theorem stepWith_of_fetch_ok {p : FetchPolicy} {s : State} {i : Instr} (hs : s.Running) (hf : s.fetch p = .ok i) :
    stepWith p s = exec i s := by
  rw [stepWith_of_running hs, hf]

/-- A running machine is never stuck: taking a fault and executing an instruction both have a next state. -/
theorem stepWith_next_of_running {p : FetchPolicy} {s : State} (hs : s.Running) : ∃ t, stepWith p s = .next t := by
  cases hf : s.fetch p with
  | error c => exact ⟨_, stepWith_of_fetch_error hs hf⟩
  | ok i => rw [stepWith_of_fetch_ok hs hf]; exact exec_next i s

/-- The hardware fetches speculatively (R5, spec decision D2). -/
theorem State.fetch_hardwarePolicy (s : State) : s.fetch hardwarePolicy = s.fetchSpeculative := rfl

/-- The fetch faults that every instruction's rule includes: from 254 on the fetch reaches past address 255 (R93). -/
theorem commonFetchFaults : CommonFetchFaults := by
  intro s hs hpc
  have hf := s.fetch_hardwarePolicy.trans (State.fetchSpeculative_of_ge hpc)
  exact stepWith_of_fetch_error hs hf

/-- A first bad operand byte names no register. -/
theorem le_toNat_of_firstBadOperand {i : Instr} {v : Byte} (h : firstBadOperand i = some v) : 8 ≤ v.toNat := by
  simpa using List.find?_some h

/-- A bad register operand fails the first check, before CALL's return address and the stack bound (R95, R178). -/
theorem State.raises_of_firstBadOperand {i : Instr} {v : Byte} (h : firstBadOperand i = some v) (s : State) :
    s.raises i = some (.outOfRangeRegister v) := by
  rw [State.raises, h, Option.map_some, Option.some_or]

end Sys2Proof.Machine

namespace Sys2Proof.Proofs

open Sys2Proof.Machine

/-- Settles O7: a running machine steps whatever its fetch gives (`stepWith_next_of_running`), and every step starts in
a running one (`stepWith_cases`). -/
theorem stepEnabledExactlyWhenRunning : Obligations.StepEnabledExactlyWhenRunning := by
  refine fun p s => ⟨⟨?_, stepWith_next_of_running⟩, State.runState_eq_running_iff.symm⟩
  rintro ⟨t, h⟩
  obtain ⟨hs, -⟩ := stepWith_cases h
  exact hs

/-- Settles O8: a step that raises is fault entry from the state it started in (`stepWith_fault`). -/
theorem faultingStepCommitsNothing : Obligations.FaultingStepCommitsNothing := by
  intro p s t h hf
  obtain ⟨c, ht⟩ := stepWith_fault h hf
  exact ⟨c, ht.trans (s.takeFault_eq c)⟩

/-- Settles O11: the operands are the first check of every instruction, whatever its effect (`exec_of_raises_some`); which
bytes they are is read off each row. -/
theorem badRegisterOperandFaults : Obligations.BadRegisterOperandFaults := by
  refine ⟨fun i s v hv => ⟨le_toNat_of_firstBadOperand hv, ?_⟩, fun i => ?_⟩
  · exact exec_of_raises_some (State.raises_of_firstBadOperand hv s)
  · cases i <;> rfl

/-- Settles O6: `State.fetchSpeculative_of_ge` from 254 on, `State.fetchSpeculative_of_le` below. -/
theorem fetchBeyondMemoryFaults : Obligations.FetchBeyondMemoryFaults := by
  refine ⟨commonFetchFaults, fun s hpc => ?_⟩
  rw [State.fetch_hardwarePolicy, State.fetchSpeculative_of_le hpc]
  cases decodeBytes (s.mem.read s.pc.toNat) (s.mem.read (s.pc.toNat + 1)) (s.mem.read (s.pc.toNat + 2)) <;> rfl

end Sys2Proof.Proofs

/-! ## Proofs about system, data and I/O (41_system_data_io.md)

The settled statements of 41_system_data_io.md come last; before them stand the facts they share. -/

namespace Sys2Proof.Machine

/-- The first bad operand byte is the fault an instruction takes, whatever its other checks (R95, R178). -/
theorem exec_of_firstBadOperand {i : Instr} {v : Byte} (h : firstBadOperand i = some v) (s : State) :
    exec i s = .next (s.Faulted (.outOfRangeRegister v)) :=
  exec_of_raises_some (State.raises_of_firstBadOperand h s)

/-- An instruction with the one register operand `a` faults where `a` names no register. -/
theorem exec_of_bad_operand {i : Instr} {a : Byte} (ho : i.regOperands = [a]) (ha : 8 ≤ a.toNat) (s : State) :
    exec i s = .next (s.Faulted (.outOfRangeRegister a)) :=
  exec_of_firstBadOperand (by rw [firstBadOperand_one ho, if_pos ha]) s

/-- HLT completes from every state. -/
theorem exec_hlt (s : State) : exec .hlt s = .next (s.halt.advance 1) :=
  exec_of_raises_none s.raises_hlt

/-- LDI with a legal operand completes with the immediate in that register, register 7 included (R111). -/
theorem exec_ldi_of_lt {a : Byte} (ha : a.toNat < 8) (imm : Byte) (s : State) :
    exec (.ldi a imm) s = .next ((s.writeReg ⟨a.toNat, ha⟩ imm).advance 3) := by
  rw [exec_of_raises_none (State.raises_of_one_operand rfl ha rfl rfl)]
  simp only [State.effect, reg_of_lt ha]

/-- A halted machine exits with status 0, whatever its fault record (R187). -/
theorem State.exitStatus_of_halted {s : State} (h : s.halted = true) : s.exitStatus = some 0 := by
  rw [State.exitStatus, State.runState_of_halted h]

end Sys2Proof.Machine

namespace Sys2Proof.Proofs

open Sys2Proof.Machine

/-- Settles O31: HLT completes halted (`exec_hlt`), and a halted machine takes no step (`stepWith_of_halted`); who sets
`halted` is `exec_halted_iff`. -/
theorem hltHalts : Obligations.HltHalts := by
  refine fun s => ⟨fun hpc => ?_, fun i t h hs ht => ?_, rfl, commonFetchFaults⟩
  · have hh : (s.halt.advance 1).halted = true := rfl
    refine ⟨_, exec_hlt s, hh, toNat_advance (pc := s.pc) (by omega), rfl, rfl, rfl, rfl, rfl, State.runState_of_halted hh,
      State.exitStatus_of_halted hh, fun u => ?_⟩
    simp [step, stepWith_of_halted hh]
  · obtain hs' | hi := (exec_halted_iff h).1 ht
    · simp [hs] at hs'
    · exact hi

/-- Settles O32: LDI by its operand (`exec_ldi_of_lt`, `exec_of_bad_operand`); what the registers then read is
`State.readReg_writeReg`. -/
theorem ldiLoadsImmediate : Obligations.LdiLoadsImmediate := by
  refine fun a imm s => ⟨fun ha hpc => ?_, fun ha => exec_of_bad_operand rfl ha s, rfl, commonFetchFaults⟩
  exact ⟨_, exec_ldi_of_lt ha imm s, fun q => s.readReg_writeReg _ q imm, toNat_advance (pc := s.pc) (by omega),
    rfl, rfl, rfl, rfl, rfl⟩

/-- Settles O33: PRN by its operand (`exec_prn_of_lt`, `exec_of_bad_operand`); the frame is read off the completed
state. -/
theorem prnEmitsRegister : Obligations.PrnEmitsRegister := by
  refine fun a s => ⟨fun ha hpc => ?_, fun ha => exec_of_bad_operand rfl ha s, rfl, commonFetchFaults⟩
  exact ⟨_, exec_prn_of_lt ha s, rfl, toNat_advance (pc := s.pc) (by omega), rfl, rfl, rfl, rfl, rfl⟩

end Sys2Proof.Proofs

/-! ## Proofs about the ALU (42_alu.md)

The settled statements of 42_alu.md come last; before them stand the facts they share. -/

namespace Sys2Proof.Machine

/-! ### The three ALU instructions -/

/-- An instruction with the two register operands `a` and `b`, no return address and no stack access fails no check
where both name a register. -/
theorem State.raises_of_two_operands {s : State} {i : Instr} {a b : Byte} (ho : i.regOperands = [a, b])
    (ha : a.toNat < 8) (hb : b.toNat < 8) (hr : s.returnFault i = none) (hs : s.stackFault i = none) :
    s.raises i = none := by
  simp [State.raises, firstBadOperand_two ho, Nat.not_le.2 ha, Nat.not_le.2 hb, hr, hs]

/-- An instruction with the two register operands `a` and `b` faults on `a` where it names no register, else on `b`
(R95). -/
theorem exec_of_bad_operands {i : Instr} {a b : Byte} (ho : i.regOperands = [a, b]) (s : State) :
    (8 ≤ a.toNat → exec i s = .next (s.Faulted (.outOfRangeRegister a))) ∧
    (a.toNat < 8 → 8 ≤ b.toNat → exec i s = .next (s.Faulted (.outOfRangeRegister b))) := by
  refine ⟨fun ha => exec_of_firstBadOperand ?_ s, fun ha hb => exec_of_firstBadOperand ?_ s⟩
  · rw [firstBadOperand_two ho, if_pos ha]
  · rw [firstBadOperand_two ho, if_neg (Nat.not_le.2 ha), if_pos hb]

/-- MUL with legal operands completes with the product in its first register, register 7 included (R121). -/
theorem exec_mul_of_lt {a b : Byte} (ha : a.toNat < 8) (hb : b.toNat < 8) (s : State) :
    exec (.mul a b) s =
      .next ((s.writeReg ⟨a.toNat, ha⟩ (s.readReg ⟨a.toNat, ha⟩ * s.readReg ⟨b.toNat, hb⟩)).advance 3) := by
  rw [exec_of_raises_none (State.raises_of_two_operands rfl ha hb rfl rfl)]
  simp only [State.effect, reg_of_lt ha, reg_of_lt hb]

/-- ADD with legal operands completes with the sum in its first register, register 7 included (R122). -/
theorem exec_add_of_lt {a b : Byte} (ha : a.toNat < 8) (hb : b.toNat < 8) (s : State) :
    exec (.add a b) s =
      .next ((s.writeReg ⟨a.toNat, ha⟩ (s.readReg ⟨a.toNat, ha⟩ + s.readReg ⟨b.toNat, hb⟩)).advance 3) := by
  rw [exec_of_raises_none (State.raises_of_two_operands rfl ha hb rfl rfl)]
  simp only [State.effect, reg_of_lt ha, reg_of_lt hb]

/-- CMP with legal operands completes with the comparison of its registers in the flags (R123). -/
theorem exec_cmp_of_lt {a b : Byte} (ha : a.toNat < 8) (hb : b.toNat < 8) (s : State) :
    exec (.cmp a b) s =
      .next ((s.setFlags (Flags.compare (s.readReg ⟨a.toNat, ha⟩) (s.readReg ⟨b.toNat, hb⟩))).advance 3) := by
  rw [exec_of_raises_none (State.raises_of_two_operands rfl ha hb rfl rfl)]
  simp only [State.effect, reg_of_lt ha, reg_of_lt hb]

/-- The unsigned value a register holds after a write. -/
theorem State.toNat_readReg_writeReg (s : State) (r q : RegIndex) (v : Byte) :
    ((s.writeReg r v).readReg q).toNat = if q = r then v.toNat else (s.readReg q).toNat := by
  rw [State.readReg_writeReg, apply_ite BitVec.toNat]

/-! ### The conditional jumps on either outcome (R153, R154) -/

/-- JEQ with a legal operand jumps where `E` is set, else goes on. -/
theorem exec_jeq_of_lt {a : Byte} (ha : a.toNat < 8) (s : State) :
    exec (.jeq a) s = .next (if s.flags.e = true then s.jump (s.readReg ⟨a.toNat, ha⟩) else s.advance 2) := by
  rw [exec_of_raises_none (State.raises_of_one_operand rfl ha rfl rfl)]
  simp only [State.effect, reg_of_lt ha]

/-- JNE with a legal operand jumps where `E` is clear, else goes on. -/
theorem exec_jne_of_lt {a : Byte} (ha : a.toNat < 8) (s : State) :
    exec (.jne a) s = .next (if s.flags.e = false then s.jump (s.readReg ⟨a.toNat, ha⟩) else s.advance 2) := by
  rw [exec_of_raises_none (State.raises_of_one_operand rfl ha rfl rfl)]
  cases he : s.flags.e <;> simp [State.effect, reg_of_lt ha, he]

/-- Where a conditional jump ends: at its target, or two bytes further. -/
theorem State.toNat_pc_jump_or_advance {s : State} (hpc : s.pc.toNat ≤ 254) (p : Prop) [Decidable p] (target : Byte) :
    (if p then s.jump target else s.advance 2).pc.toNat = if p then target.toNat else s.pc.toNat + 2 := by
  split
  · exact toNat_target target
  · exact toNat_advance (by omega)

end Sys2Proof.Machine

namespace Sys2Proof.Proofs

open Sys2Proof.Machine

/-- Settles O34: MUL by its operands (`exec_mul_of_lt`, `exec_of_bad_operands`); the product of bytes is the product mod
256. -/
theorem mulMultipliesMod256 : Obligations.MulMultipliesMod256 := by
  intro a b s
  obtain ⟨hbadA, hbadB⟩ := exec_of_bad_operands (i := .mul a b) rfl s
  refine ⟨fun ha hb hpc => ?_, hbadA, hbadB, rfl, commonFetchFaults⟩
  refine ⟨_, exec_mul_of_lt ha hb s, fun q => ?_, toNat_advance (pc := s.pc) (by omega), rfl, rfl, rfl, rfl, rfl⟩
  rw [State.advance_readReg, State.toNat_readReg_writeReg, BitVec.toNat_mul]

/-- Settles O35: ADD by its operands (`exec_add_of_lt`, `exec_of_bad_operands`); the sum of bytes is the sum mod 256. -/
theorem addAddsMod256 : Obligations.AddAddsMod256 := by
  intro a b s
  obtain ⟨hbadA, hbadB⟩ := exec_of_bad_operands (i := .add a b) rfl s
  refine ⟨fun ha hb hpc => ?_, hbadA, hbadB, rfl, commonFetchFaults⟩
  refine ⟨_, exec_add_of_lt ha hb s, fun q => ?_, toNat_advance (pc := s.pc) (by omega), rfl, rfl, rfl, rfl, rfl⟩
  rw [State.advance_readReg, State.toNat_readReg_writeReg, BitVec.toNat_add]

/-- Settles O36: CMP by its operands (`exec_cmp_of_lt`, `exec_of_bad_operands`); the flags are `Flags.compare_spec`. -/
theorem cmpSetsExactlyOneFlag : Obligations.CmpSetsExactlyOneFlag := by
  intro a b s
  obtain ⟨hbadA, hbadB⟩ := exec_of_bad_operands (i := .cmp a b) rfl s
  refine ⟨fun ha hb hpc => ?_, hbadA, hbadB, rfl, commonFetchFaults⟩
  obtain ⟨he, hg, hl, hone⟩ := Flags.compare_spec (s.readReg ⟨a.toNat, ha⟩) (s.readReg ⟨b.toNat, hb⟩)
  exact ⟨_, exec_cmp_of_lt ha hb s, he, hg, hl, hone, toNat_advance (pc := s.pc) (by omega), rfl, rfl, rfl, rfl, rfl⟩

/-- Settles O45: the results are the sum and the product of two bytes, which `BitVec` reads unsigned mod 256 and signed
by `bmod 256`. -/
theorem arithmeticAgreesWithSignedReading : Obligations.ArithmeticAgreesWithSignedReading := by
  intro a b ha hb s _
  refine ⟨_, _, _, _, exec_add_of_lt ha hb s, exec_add_of_lt hb ha s, exec_mul_of_lt ha hb s, exec_mul_of_lt hb ha s, ?_⟩
  simp only [State.advance_readReg, State.readReg_writeReg_same]
  exact ⟨BitVec.toNat_add _ _, BitVec.toNat_mul _ _, BitVec.add_comm _ _, BitVec.mul_comm _ _, BitVec.toInt_add _ _,
    BitVec.toInt_mul _ _, rfl, rfl, rfl, rfl⟩

/-- Settles O46: after CMP, `E` says whether the values are equal (`Flags.compare_spec`), and the jumps read `E`. -/
theorem compareThenConditionalJump : Obligations.CompareThenConditionalJump := by
  intro a b c ha hb hc s hpc
  obtain ⟨he, hg, hl, hone⟩ := Flags.compare_spec (s.readReg ⟨a.toNat, ha⟩) (s.readReg ⟨b.toNat, hb⟩)
  have hadv : ∀ f, ((s.setFlags f).advance 3).pc.toNat = s.pc.toNat + 3 := fun _ =>
    toNat_advance (pc := s.pc) (by omega)
  have hne := Bool.eq_false_iff.trans (not_congr he)
  refine ⟨_, _, _, exec_cmp_of_lt ha hb s, exec_jeq_of_lt hc _, exec_jne_of_lt hc _, hone, he, hg, hl, ?_, ?_⟩
  all_goals rw [State.toNat_pc_jump_or_advance (by rw [hadv]; omega), hadv]
  · exact if_congr he rfl rfl
  · exact (if_congr hne rfl rfl).trans (ite_not _ _ _)

end Sys2Proof.Proofs

/-! ## Proofs about the stack (43_stack.md)

The settled statements of 43_stack.md come last; before them stand the facts they share. -/

namespace Sys2Proof.Machine

/-- With a legal register operand and no return address to check, only the stack bound can fail (R178). -/
theorem State.raises_eq_stackFault {s : State} {i : Instr} {a : Byte} (ho : i.regOperands = [a]) (ha : a.toNat < 8)
    (hr : s.returnFault i = none) : s.raises i = s.stackFault i := by
  rw [State.raises, firstBadOperand_one ho, if_neg (Nat.not_le.2 ha), hr, Option.map_none, Option.none_or, Option.none_or]

@[simp] theorem State.advance_stackSlot (s : State) (n : Nat) : (s.advance n).stackSlot = s.stackSlot := rfl

/-! ### PUSH (R142) -/

/-- PUSH with a legal operand and room below the stack pointer completes; the register is read after the decrement. -/
theorem exec_push_of_lt {a : Byte} (ha : a.toNat < 8) {s : State} (hs : s.sp ≠ 0x00#8) :
    exec (.push a) s = .next ((s.afterPush fun t => t.readReg ⟨a.toNat, ha⟩).advance 2) := by
  have hr : s.raises (.push a) = none := (State.raises_eq_stackFault rfl ha rfl).trans (if_neg hs)
  rw [exec_of_raises_none hr]
  simp only [State.effect, reg_of_lt ha]

/-- PUSH with a legal operand overflows where the stack pointer is at the bottom of memory. -/
theorem exec_push_of_sp_zero {a : Byte} {s : State} (ha : a.toNat < 8) (hs : s.sp = 0x00#8) :
    exec (.push a) s = .next (s.Faulted (.stackOverflow 0x00#8)) :=
  exec_of_raises_some ((State.raises_eq_stackFault rfl ha rfl).trans (if_pos hs))

/-- The stack slot after a push is the one below. -/
theorem State.stackSlot_afterPush_add_one {s : State} (hs : s.sp ≠ 0x00#8) (v : State → Byte) :
    (s.afterPush v).stackSlot + 1 = s.stackSlot := by
  rw [State.stackSlot, State.afterPush_sp, toNat_sub_one hs, State.stackSlot]

/-- A push stores at the new stack slot the byte computed after the decrement, and leaves every other cell. -/
theorem State.read_afterPush {s : State} (hm : s.mem.wf = true) (v : State → Byte) (b : Nat) :
    (s.afterPush v).mem.read b =
      if b = (s.afterPush v).stackSlot then v (s.writeReg Config.spIndex (s.sp - 1#8)) else s.mem.read b := by
  rw [State.afterPush_mem, Memory.read_write hm, State.stackSlot, State.afterPush_sp]

/-! ### POP (R143) -/

/-- The value a POP into `a` increments: the popped byte where `a` is the stack pointer itself, else the stack
pointer. -/
def State.popBase (s : State) (a : Byte) : Byte := if a = 7#8 then s.mem.read s.stackSlot else s.sp

/-- POP with a legal operand completes where the value to be incremented has a successor. -/
theorem exec_pop_of_lt {a : Byte} (ha : a.toNat < 8) {s : State} (hs : s.popBase a ≠ 0xFF#8) :
    exec (.pop a) s = .next ((s.writeReg ⟨a.toNat, ha⟩ (s.mem.read s.stackSlot)).afterPop.advance 2) := by
  have hr : s.raises (.pop a) = none := (State.raises_eq_stackFault rfl ha rfl).trans (if_neg hs)
  rw [exec_of_raises_none hr]
  simp only [State.effect, reg_of_lt ha]

/-- POP with a legal operand underflows where the value to be incremented is 0xFF. -/
theorem exec_pop_of_popBase_max {a : Byte} {s : State} (ha : a.toNat < 8) (hs : s.popBase a = 0xFF#8) :
    exec (.pop a) s = .next (s.Faulted (.stackUnderflow 0xFF#8)) :=
  exec_of_raises_some ((State.raises_eq_stackFault rfl ha rfl).trans (if_pos hs))

/-- Delivering the popped byte to `a` leaves as the stack pointer the value to be incremented. -/
theorem State.sp_deliver_eq_popBase {a : Byte} (ha : a.toNat < 8) (s : State) :
    (s.writeReg ⟨a.toNat, ha⟩ (s.mem.read s.stackSlot)).sp = s.popBase a := by
  rw [← reg_of_lt ha, State.sp_deliver ha, State.popBase]

end Sys2Proof.Machine

namespace Sys2Proof.Proofs

open Sys2Proof.Machine

/-- Settles O37: PUSH by its operand and the stack pointer (`exec_push_of_lt`, `exec_push_of_sp_zero`,
`exec_of_bad_operand`); what the cells then read is `State.read_afterPush`. -/
theorem pushStoresBelowStackPointer : Obligations.PushStoresBelowStackPointer := by
  refine fun a s => ⟨fun ha hs hpc => ?_, fun ha => exec_of_bad_operand rfl ha s, exec_push_of_sp_zero, rfl,
    commonFetchFaults⟩
  refine ⟨_, exec_push_of_lt ha hs, fun q => ?_, ?_, fun hm => ?_, toNat_advance (pc := s.pc) (by omega),
    rfl, rfl, rfl, rfl⟩
  · rw [State.advance_readReg, State.afterPush_readReg]
  · rw [State.advance_stackSlot, State.stackSlot_afterPush_add_one hs]
  · exact State.read_afterPush hm fun t => t.readReg ⟨a.toNat, ha⟩

/-- Settles O38: POP by its operand and the value to be incremented (`exec_pop_of_lt`, `exec_pop_of_popBase_max`,
`exec_of_bad_operand`); that value is the stack pointer once the byte is delivered (`State.sp_deliver_eq_popBase`). -/
theorem popLoadsFromStackPointer : Obligations.PopLoadsFromStackPointer := by
  refine fun a s => ⟨fun ha hs hpc => ?_, fun ha => exec_of_bad_operand rfl ha s, exec_pop_of_popBase_max, rfl,
    commonFetchFaults⟩
  have hsp := State.sp_deliver_eq_popBase ha s
  refine ⟨_, exec_pop_of_lt ha hs, fun q => ?_, ?_, toNat_advance (pc := s.pc) (by omega), rfl, rfl, rfl, rfl, rfl⟩
  · rw [State.advance_readReg, State.afterPop_readReg, hsp, State.readReg_writeReg, State.popBase]
  · rw [State.advance_sp, State.afterPop_sp, hsp]
    exact toNat_add_one hs

end Sys2Proof.Proofs

/-! ## Proofs about control transfer (44_control_transfer.md)

The settled statements of 44_control_transfer.md come last; before them stand the facts they share. -/

namespace Sys2Proof.Machine

@[simp] theorem State.jump_stackSlot (s : State) (target : Byte) : (s.jump target).stackSlot = s.stackSlot := rfl

/-! ### CALL (R150) -/

/-- With a legal register operand and a return address that is a byte, CALL can fail at the stack bound only (R178). -/
theorem State.raises_call_of_pc_le {a : Byte} (ha : a.toNat < 8) {s : State} (hpc : s.pc.toNat ≤ 253) :
    s.raises (.call a) = s.stackFault (.call a) :=
  State.raises_eq_stackFault rfl ha (if_neg (by omega))

/-- CALL with a legal operand, a return address and room below the stack pointer completes: the return address is pushed
and the target is read after the push. -/
theorem exec_call_of_lt {a : Byte} (ha : a.toNat < 8) {s : State} (hpc : s.pc.toNat ≤ 253) (hs : s.sp ≠ 0x00#8) :
    exec (.call a) s = .next ((s.afterPush fun _ => BitVec.ofNat 8 (s.pc.toNat + 2)).jump
      ((s.afterPush fun _ => BitVec.ofNat 8 (s.pc.toNat + 2)).readReg ⟨a.toNat, ha⟩)) := by
  have hr : s.raises (.call a) = none := (State.raises_call_of_pc_le ha hpc).trans (if_neg hs)
  rw [exec_of_raises_none hr]
  simp only [State.effect, reg_of_lt ha]

/-- CALL with a legal operand and a return address overflows where the stack pointer is at the bottom of memory. -/
theorem exec_call_of_sp_zero {a : Byte} {s : State} (ha : a.toNat < 8) (hpc : s.pc.toNat ≤ 253) (hs : s.sp = 0x00#8) :
    exec (.call a) s = .next (s.Faulted (.stackOverflow 0x00#8)) :=
  exec_of_raises_some ((State.raises_call_of_pc_le ha hpc).trans (if_pos hs))

/-- CALL with a legal operand faults where its return address is not a byte, before the stack bound (R100, R178). -/
theorem exec_call_of_pc_ge {a : Byte} {s : State} (ha : a.toNat < 8) (hpc : 254 ≤ s.pc.toNat) :
    exec (.call a) s = .next (s.Faulted (.outOfRangeMemory (s.pc.toNat + 2))) := by
  have hr : s.returnFault (.call a) = some (.outOfRangeMemory (s.pc.toNat + 2)) := if_pos hpc
  refine exec_of_raises_some ?_
  rw [State.raises, firstBadOperand_one rfl, if_neg (Nat.not_le.2 ha), hr, Option.map_none, Option.none_or,
    Option.some_or]

/-! ### RET (R151) -/

/-- RET has no operand and no return address to check: only the stack bound can fail. -/
theorem State.raises_ret (s : State) : s.raises .ret = s.stackFault .ret := rfl

/-- RET completes where the stack pointer has a successor. -/
theorem exec_ret_of_sp_ne_max {s : State} (hs : s.sp ≠ 0xFF#8) :
    exec .ret s = .next (s.jump (s.mem.read s.stackSlot)).afterPop :=
  exec_of_raises_none (s.raises_ret.trans (if_neg hs))

/-- RET underflows where the stack pointer is at the top of memory. -/
theorem exec_ret_of_sp_max {s : State} (hs : s.sp = 0xFF#8) :
    exec .ret s = .next (s.Faulted (.stackUnderflow 0xFF#8)) :=
  exec_of_raises_some (s.raises_ret.trans (if_pos hs))

/-! ### The jumps (R152 to R154) -/

/-- JMP with a legal operand completes at the value of its register. -/
theorem exec_jmp_of_lt {a : Byte} (ha : a.toNat < 8) (s : State) :
    exec (.jmp a) s = .next (s.jump (s.readReg ⟨a.toNat, ha⟩)) := by
  rw [exec_of_raises_none (State.raises_of_one_operand rfl ha rfl rfl)]
  simp only [State.effect, reg_of_lt ha]

/-- Whether it is taken or not, a conditional jump changes nothing but `pc`. -/
theorem State.jump_or_advance_frame {s t : State} {p : Prop} [Decidable p] {target : Byte}
    (ht : (if p then s.jump target else s.advance 2) = t) :
    t.regs = s.regs ∧ t.flags = s.flags ∧ t.halted = s.halted ∧ t.mem = s.mem ∧ t.fault = s.fault ∧ t.out = s.out := by
  subst ht
  split
  · exact ⟨rfl, rfl, rfl, rfl, rfl, rfl⟩
  · exact ⟨rfl, rfl, rfl, rfl, rfl, rfl⟩

end Sys2Proof.Machine

namespace Sys2Proof.Proofs

open Sys2Proof.Machine

/-- Settles O39: CALL by its operand, its return address and the stack pointer (`exec_call_of_lt`,
`exec_call_of_sp_zero`, `exec_call_of_pc_ge`, `exec_of_bad_operand`); up to `pc = 253` the return address is a byte, so
the pushed cell (`State.read_afterPush`) holds it unreduced. -/
theorem callPushesReturnAddress : Obligations.CallPushesReturnAddress := by
  refine fun a s => ⟨fun ha hs hpc => ?_, fun ha => exec_of_bad_operand rfl ha s, exec_call_of_sp_zero, fun ha hpc => ?_,
    rfl, commonFetchFaults⟩
  · refine ⟨_, exec_call_of_lt ha hpc hs, fun q => ?_, ?_, fun hm => ⟨?_, fun b hb => ?_⟩, toNat_target _,
      rfl, rfl, rfl, rfl⟩
    · rw [State.jump_readReg, State.afterPush_readReg]
    · rw [State.jump_stackSlot, State.stackSlot_afterPush_add_one hs]
    · rw [State.jump_mem, State.jump_stackSlot, State.read_afterPush hm, if_pos rfl, BitVec.toNat_ofNat]
      omega
    · rw [State.jump_stackSlot] at hb
      rw [State.jump_mem, State.read_afterPush hm, if_neg hb]
  · rw [exec_call_of_pc_ge ha (by omega), hpc]

/-- Settles O40: RET by the stack pointer (`exec_ret_of_sp_ne_max`, `exec_ret_of_sp_max`); the increment does not wrap
(`toNat_add_one`). -/
theorem retPopsIntoPc : Obligations.RetPopsIntoPc := by
  refine fun s => ⟨fun hs => ?_, exec_ret_of_sp_max, rfl, commonFetchFaults⟩
  refine ⟨_, exec_ret_of_sp_ne_max hs, toNat_target _, fun q => ?_, ?_, rfl, rfl, rfl, rfl, rfl⟩
  · rw [State.afterPop_readReg, State.jump_sp, State.jump_readReg]
  · rw [State.afterPop_sp, State.jump_sp, toNat_add_one hs]

/-- Settles O41: JMP by its operand (`exec_jmp_of_lt`, `exec_of_bad_operand`); the frame is read off the completed
state. -/
theorem jmpGoesToRegister : Obligations.JmpGoesToRegister := by
  refine fun a s => ⟨fun ha => ?_, fun ha => exec_of_bad_operand rfl ha s, rfl, commonFetchFaults⟩
  exact ⟨_, exec_jmp_of_lt ha s, toNat_target _, rfl, rfl, rfl, rfl, rfl, rfl⟩

/-- Settles O42: JEQ by its operand (`exec_jeq_of_lt`, `exec_of_bad_operand`); where it ends is
`State.toNat_pc_jump_or_advance`. -/
theorem jeqJumpsWhenEqual : Obligations.JeqJumpsWhenEqual := by
  refine fun a s => ⟨fun ha hpc => ?_, fun ha => exec_of_bad_operand rfl ha s, rfl, commonFetchFaults⟩
  exact ⟨_, exec_jeq_of_lt ha s, State.toNat_pc_jump_or_advance hpc _ _, State.jump_or_advance_frame rfl⟩

/-- Settles O43: JNE by its operand (`exec_jne_of_lt`, `exec_of_bad_operand`); where it ends is
`State.toNat_pc_jump_or_advance`. -/
theorem jneJumpsWhenNotEqual : Obligations.JneJumpsWhenNotEqual := by
  refine fun a s => ⟨fun ha hpc => ?_, fun ha => exec_of_bad_operand rfl ha s, rfl, commonFetchFaults⟩
  exact ⟨_, exec_jne_of_lt ha s, State.toNat_pc_jump_or_advance hpc _ _, State.jump_or_advance_frame rfl⟩

end Sys2Proof.Proofs

/-! ## Proofs about exceptions (60_exceptions.md)

The settled statements of 60_exceptions.md come last; before them stand the facts they share. -/

namespace Sys2Proof.Machine

/-! ### Fetch and decode under either policy -/

/-- Lazy: an opcode address past 255 is reported itself (R100, R173). -/
theorem State.fetchLazy_of_gt {s : State} (h : 255 < s.pc.toNat) :
    s.fetchLazy = .error (.outOfRangeMemory s.pc.toNat) := by
  rw [State.fetchLazy, s.memRead_of_ge h, except_bind_error]

/-- Speculative: three bytes that exist and decode are handed on as their instruction. -/
theorem State.fetchSpeculative_of_decodeBytes {s : State} {i : Instr} (hpc : s.pc.toNat ≤ 253)
    (hd : decodeBytes (s.mem.read s.pc.toNat) (s.mem.read (s.pc.toNat + 1)) (s.mem.read (s.pc.toNat + 2)) = some i) :
    s.fetchSpeculative = .ok i := by
  rw [State.fetchSpeculative_of_le hpc, hd]

/-- The lazy counterpart of `step_of_ofByte_eq_none`: only the opcode byte has to exist. -/
theorem stepWith_lazy_of_ofByte_eq_none {s : State} (hs : s.Running) (hpc : s.pc.toNat ≤ 255)
    (hb : Opcode.ofByte (s.mem.read s.pc.toNat) = none) :
    stepWith .lazy s = .next (s.Faulted (.unrecognizedOpcode (s.mem.read s.pc.toNat))) :=
  stepWith_of_fetch_error hs (State.fetchLazy_unrecognized hpc hb)

/-- The values listed in R172 are all the opcode bytes there are: any other byte is unrecognized. -/
theorem ofByte_eq_none_of_not_listed {b : Byte}
    (hb : b ∉ [0x01#8, 0x11#8, 0x45#8, 0x46#8, 0x47#8, 0x50#8, 0x54#8, 0x55#8, 0x56#8, 0x82#8, 0xA0#8, 0xA2#8, 0xA7#8]) :
    Opcode.ofByte b = none := by
  rw [Opcode.ofByte_eq_none_iff]
  rintro o rfl
  cases o <;> exact hb (by decide)

/-! ### What the host sees of a fault -/

/-- A running machine that takes a fault is stopped by it (R30). -/
theorem State.runState_Faulted {s : State} (hs : s.Running) (c : FaultCause) :
    (s.Faulted c).runState = .faulted c := by
  simp [State.runState, State.Faulted, hs.1]

/-! ### The checks of an instruction, in the order of R178 -/

/-- CALL's return-address check fails for a CALL whose `pc + 2` is not a byte, and for nothing else (R100). -/
theorem State.returnFault_eq (s : State) (i : Instr) :
    s.returnFault i =
      if i.opcode = .call ∧ 254 ≤ s.pc.toNat then some (.outOfRangeMemory (s.pc.toNat + 2)) else none := by
  cases i <;> simp [State.returnFault, Instr.opcode]

/-- A CALL whose bytes lie within memory fails the return-address check exactly at 254, and reports 256. -/
theorem State.returnFault_of_fits {s : State} {i : Instr} (h : s.pc.toNat + i.length ≤ 256) :
    s.returnFault i = if i.opcode = .call ∧ s.pc.toNat = 254 then some (.outOfRangeMemory 256) else none := by
  rw [State.returnFault_eq]
  by_cases hcall : i.opcode = .call
  · have hlen : i.length = 2 := by rw [Instr.length, hcall]; rfl
    by_cases hpc : s.pc.toNat = 254
    · simp [hcall, hpc]
    · rw [if_neg (by omega), if_neg (by omega)]
  · simp [hcall]

/-- With legal operands the return-address check is the one that counts, where it fails. -/
theorem State.raises_of_returnFault {s : State} {i : Instr} {c : FaultCause} (hb : firstBadOperand i = none)
    (hr : s.returnFault i = some c) : s.raises i = some c := by
  rw [State.raises, hb, hr, Option.map_none, Option.none_or, Option.some_or]

/-- With legal operands and no return address to object to, the stack bound decides. -/
theorem State.raises_of_stackFault {s : State} {i : Instr} (hb : firstBadOperand i = none)
    (hr : s.returnFault i = none) : s.raises i = s.stackFault i := by
  rw [State.raises, hb, hr, Option.map_none, Option.none_or, Option.none_or]

/-- A fault an instruction raises is that of one of its three checks. -/
theorem State.raises_cases {s : State} {i : Instr} {c : FaultCause} (h : s.raises i = some c) :
    (∃ v, firstBadOperand i = some v ∧ c = .outOfRangeRegister v) ∨ s.returnFault i = some c ∨
      s.stackFault i = some c := by
  cases hb : firstBadOperand i with
  | some v => exact .inl ⟨v, rfl, by simpa [State.raises_of_firstBadOperand hb] using h.symm⟩
  | none =>
    cases hr : s.returnFault i with
    | some d => exact .inr (.inl (by rwa [State.raises_of_returnFault hb hr] at h))
    | none => exact .inr (.inr (by rwa [State.raises_of_stackFault hb hr] at h))

/-- A stack bound is met by PUSH or CALL at the bottom of memory, or by RET or POP where the value to be incremented is
0xFF (R175, R176). -/
theorem State.stackFault_cases {s : State} {i : Instr} {c : FaultCause} (h : s.stackFault i = some c) :
    (c = .stackOverflow 0x00#8 ∧ s.sp = 0x00#8 ∧ ((∃ a, i = .push a) ∨ ∃ a, i = .call a)) ∨
      (c = .stackUnderflow 0xFF#8 ∧ ((i = .ret ∧ s.sp = 0xFF#8) ∨ ∃ a, i = .pop a ∧ s.popBase a = 0xFF#8)) := by
  cases i with
  | push a | call a =>
    obtain ⟨hsp, rfl⟩ : s.sp = 0x00#8 ∧ FaultCause.stackOverflow 0x00#8 = c := by simpa [State.stackFault] using h
    exact .inl ⟨rfl, hsp, by simp⟩
  | pop a =>
    obtain ⟨hbase, rfl⟩ : s.popBase a = 0xFF#8 ∧ FaultCause.stackUnderflow 0xFF#8 = c := by
      simpa [State.stackFault, State.popBase] using h
    exact .inr ⟨rfl, .inr ⟨a, rfl, hbase⟩⟩
  | ret =>
    obtain ⟨hsp, rfl⟩ : s.sp = 0xFF#8 ∧ FaultCause.stackUnderflow 0xFF#8 = c := by simpa [State.stackFault] using h
    exact .inr ⟨rfl, .inl ⟨rfl, hsp⟩⟩
  | _ => simp [State.stackFault] at h

/-! ### The fault of a step -/

/-- A step takes the fault of the fetched instruction's first failing check. -/
theorem stepWith_of_raises_some {p : FetchPolicy} {s : State} {i : Instr} {c : FaultCause} (hs : s.Running)
    (hf : s.fetch p = .ok i) (hr : s.raises i = some c) : stepWith p s = .next (s.Faulted c) := by
  rw [stepWith_of_fetch_ok hs hf, exec_of_raises_some hr, State.takeFault_eq]

/-- A step completes without a fault where no check of the fetched instruction fails. -/
theorem stepWith_of_raises_none {p : FetchPolicy} {s : State} {i : Instr} (hs : s.Running)
    (hf : s.fetch p = .ok i) (hr : s.raises i = none) : ∃ t, stepWith p s = .next t ∧ t.fault = none := by
  have hx : stepWith p s = .next (s.effect i) := by rw [stepWith_of_fetch_ok hs hf, exec_of_raises_none hr]
  exact ⟨_, hx, by rw [State.effect_fault, hs.2]⟩

/-- A recorded fault is one of the fetch phase or of a check of the fetched instruction, at the address of its opcode
byte. -/
theorem stepWith_fault_cases {p : FetchPolicy} {s t : State} {c : FaultCause} {pc : PC} (h : stepWith p s = .next t)
    (hr : t.fault = some ⟨c, pc⟩) :
    pc = s.pc ∧ (s.fetch p = .error c ∨ ∃ i, s.fetch p = .ok i ∧ s.raises i = some c) := by
  obtain ⟨⟨-, hfault⟩, ⟨d, hf, rfl⟩ | ⟨i, hf, hx⟩⟩ := stepWith_cases h
  · obtain ⟨rfl, rfl⟩ : d = c ∧ s.pc = pc := by simpa using hr
    exact ⟨rfl, .inl hf⟩
  · obtain ⟨d, hd, rfl⟩ | ⟨-, rfl⟩ := exec_raises_cases hx
    · obtain ⟨rfl, rfl⟩ : d = c ∧ s.pc = pc := by simpa using hr
      exact ⟨rfl, .inr ⟨i, hf, hd⟩⟩
    · simp [hfault] at hr

end Sys2Proof.Machine

namespace Sys2Proof.Proofs

open Sys2Proof.Machine

/-- Settles O9: the fault is the fetch's (`State.fetch_error_cases`) or that of a check of the fetched instruction
(`State.raises_cases`); CALL's own check fails at 254 only, where a speculative fetch hands nothing on
(`State.fetch_ok_spec`). -/
theorem faultCausesMatchTheirConditions : Obligations.FaultCausesMatchTheirConditions := by
  refine ⟨?_, fun b a => ⟨rfl, rfl, rfl, rfl, rfl, rfl, rfl⟩⟩
  rintro p s t ⟨c, pc⟩ h hr
  obtain ⟨rfl, hf | ⟨i, hf, hc⟩⟩ := stepWith_fault_cases h hr
  · obtain ⟨rfl, hb, hin⟩ | ⟨rfl, hpast⟩ := State.fetch_error_cases hf
    · exact ⟨rfl, rfl, rfl, Opcode.ofByte_eq_none_iff.1 hb, hin⟩
    · exact ⟨rfl, rfl, by split <;> omega, rfl, .inl hpast⟩
  · obtain ⟨hfits, -, hspec⟩ := State.fetch_ok_spec hf
    obtain ⟨v, hv, rfl⟩ | hret | hstack := State.raises_cases hc
    · exact ⟨rfl, rfl, le_toNat_of_firstBadOperand hv, i, hf, List.mem_of_find?_eq_some hv, hv⟩
    · rw [State.returnFault_of_fits hfits] at hret
      obtain ⟨⟨hcall, hpc⟩, rfl⟩ : (i.opcode = .call ∧ s.pc.toNat = 254) ∧ FaultCause.outOfRangeMemory 256 = c := by
        simpa using hret
      refine ⟨rfl, rfl, by omega, by rw [if_neg (by omega)], .inr ⟨?_, hpc, ?_⟩⟩
      · cases p with
        | speculative => exact absurd (hspec rfl) (by omega)
        | lazy => rfl
      · obtain ⟨b, rfl⟩ : ∃ b, i = .call b := by cases i <;> simp [Instr.opcode] at hcall ⊢
        exact ⟨b, hf⟩
    · obtain ⟨rfl, hsp, ⟨a, rfl⟩ | ⟨a, rfl⟩⟩ | ⟨rfl, ⟨rfl, hsp⟩ | ⟨a, rfl, hbase⟩⟩ := State.stackFault_cases hstack
      · exact ⟨rfl, rfl, rfl, hsp, .inl ⟨a, hf⟩⟩
      · exact ⟨rfl, rfl, rfl, hsp, .inr ⟨a, hf⟩⟩
      · exact ⟨rfl, rfl, rfl, .inl ⟨hf, hsp⟩⟩
      · exact ⟨rfl, rfl, rfl, .inr ⟨a, hf, hbase⟩⟩

/-- Settles O10: what the fetch raises comes first; a fetched instruction's checks then count in the order of
`State.raises`, the return-address check among them only for a lazily fetched CALL at 254
(`State.returnFault_of_fits`). -/
theorem faultPriority : Obligations.FaultPriority := by
  constructor
  · refine fun s hs => ⟨commonFetchFaults s hs, step_of_ofByte_eq_none hs, fun i hpc hd => ?_⟩
    have hf : s.fetch hardwarePolicy = .ok i := State.fetchSpeculative_of_decodeBytes hpc hd
    have hret : s.returnFault i = none := by rw [State.returnFault_eq, if_neg (by omega)]
    refine ⟨fun v hv => ?_, fun c hb hc => ?_, fun hb hc => ?_⟩
    · exact stepWith_of_raises_some hs hf (State.raises_of_firstBadOperand hv s)
    · exact stepWith_of_raises_some hs hf ((State.raises_of_stackFault hb hret).trans hc)
    · exact stepWith_of_raises_none hs hf ((State.raises_of_stackFault hb hret).trans hc)
  · refine fun s hs => ⟨fun hpc => stepWith_of_fetch_error hs (State.fetchLazy_of_gt hpc),
      stepWith_lazy_of_ofByte_eq_none hs,
      fun o hpc ho hlen => stepWith_of_fetch_error hs (State.fetchLazy_short ho hpc hlen), ?_⟩
    rintro o i ho hlen rfl
    have hf : s.fetch .lazy = .ok _ := State.fetchLazy_of_le ho hlen
    have hret := State.returnFault_of_fits (State.fetch_ok_spec hf).1
    rw [Opcode.assemble_opcode] at hret
    refine ⟨fun v hv => ?_, fun hb hcall hpc => ?_, fun c hb hn hc => ?_, fun hb hn hc => ?_⟩
    · exact stepWith_of_raises_some hs hf (State.raises_of_firstBadOperand hv s)
    · exact stepWith_of_raises_some hs hf (State.raises_of_returnFault hb (hret.trans (if_pos ⟨hcall, hpc⟩)))
    · exact stepWith_of_raises_some hs hf ((State.raises_of_stackFault hb (hret.trans (if_neg hn))).trans hc)
    · exact stepWith_of_raises_none hs hf ((State.raises_of_stackFault hb (hret.trans (if_neg hn))).trans hc)

/-- Settles O12: the listed values are the table's (`ofByte_eq_none_of_not_listed`), so the decode phase raises, under
either policy; the host then sees a machine stopped by that cause (`State.runState_Faulted`). -/
theorem unrecognizedOpcodeFaults : Obligations.UnrecognizedOpcodeFaults := by
  intro p s hs hpc hb
  have hnone := ofByte_eq_none_of_not_listed hb
  refine ⟨?_, by rw [State.exitStatus, State.runState_Faulted hs]⟩
  cases p with
  | speculative => exact step_of_ofByte_eq_none hs hpc hnone
  | lazy => exact stepWith_lazy_of_ofByte_eq_none hs hpc hnone

end Sys2Proof.Proofs

/-! ## Proofs about reset and the loader (70_reset_and_hazards.md)

Settles O27. What loading leaves in the cells, and that it touches nothing but memory, is proved with the state
(`State.read_load`, `State.loadBytes_frame`); here stand which programs load and the canonical form of what they leave.
-/

namespace Sys2Proof.Machine

/-- Truncated subtraction is meant: from an address past 255 on, only the empty list loads (R202). -/
theorem State.loadBytes_ok_iff {s : State} {a : Nat} {bs : List Byte} :
    (∃ t, s.loadBytes a bs = .ok t) ↔ bs.length ≤ 256 - a := by
  induction bs generalizing s a with
  | nil => exact ⟨fun _ => Nat.zero_le _, fun _ => ⟨s, rfl⟩⟩
  | cons b bs ih =>
    rw [List.length_cons]
    constructor
    · rintro ⟨t, h⟩
      obtain ⟨ha, hrest⟩ := State.loadBytes_cons h
      have hlen := ih.1 ⟨t, hrest⟩
      omega
    · intro hlen
      rw [State.loadBytes, s.memWrite_of_lt (show a < 256 by omega), except_bind_ok]
      exact ih.2 (by omega)

/-- From `Memory.wf_write`, byte by byte: every byte loaded goes to an address that exists. -/
theorem State.wf_loadBytes {s t : State} {a : Nat} {bs : List Byte} (hm : s.mem.wf = true)
    (h : s.loadBytes a bs = .ok t) : t.mem.wf = true := by
  induction bs generalizing s a with
  | nil =>
    obtain rfl : s = t := by simpa [State.loadBytes] using h
    exact hm
  | cons b bs ih =>
    obtain ⟨ha, hrest⟩ := State.loadBytes_cons h
    exact ih (Memory.wf_write hm ha b) hrest

/-- R202 from `LOAD_BASE` = 0. -/
theorem State.load_ok_of_length_le {program : List Byte} (h : program.length ≤ 256) :
    ∃ s, State.load program = .ok s := by
  obtain ⟨s, hs⟩ := (State.loadBytes_ok_iff (s := State.reset) (a := Config.loadBase)).2 h
  exact ⟨s, by rw [State.load, hs]⟩

/-- R202 with the spec's decision D19: whatever address the store refuses, the failure is the same one. -/
theorem State.load_error_of_length_gt {program : List Byte} (h : 256 < program.length) :
    State.load program = .error .programTooLong := by
  rw [State.load]
  cases hl : State.reset.loadBytes Config.loadBase program with
  | ok s => exact absurd (State.loadBytes_ok_iff.1 ⟨s, hl⟩) (Nat.not_le.2 h)
  | error c => rfl

end Sys2Proof.Machine

namespace Sys2Proof.Proofs

open Sys2Proof.Machine

/-- Settles O27: the length alone decides whether a program loads; a start state is reset with other memory
(`State.loadBytes_frame`), and O25 (`resetState`) says what each of its cells holds. -/
theorem loaderPlacesProgram : Obligations.LoaderPlacesProgram := by
  refine ⟨fun program hlen => ?_, fun program hlen => State.load_error_of_length_gt hlen⟩
  obtain ⟨s, hs⟩ := State.load_ok_of_length_le hlen
  have hbytes := State.loadBytes_of_load hs
  obtain ⟨-, -, -, -, -, -, -, hloaded⟩ := resetState
  obtain ⟨-, hcells⟩ := hloaded program s hs
  exact ⟨s, hs, State.loadBytes_frame hbytes, State.wf_loadBytes State.reset_mem_wf hbytes, hcells⟩

end Sys2Proof.Proofs

/-! ## Proofs across chapters: round trips, the invariant, the policies, footprints, host and loader

Each group of settled statements comes after the facts it shares. -/

namespace Sys2Proof

/-! ### Decoding a byte sequence (30_encoding.md) -/

/-- The assembled instruction has the length of its row. -/
@[simp] theorem Opcode.assemble_length (o : Opcode) (opa opb : Byte) : (o.assemble opa opb).length = o.length := by
  rw [Instr.length, Opcode.assemble_opcode]

theorem Opcode.length_le_three (o : Opcode) : o.length ≤ 3 := by
  cases o <;> decide

theorem decode_of_no_operands {o : Opcode} (ho : o.format.operandCount = 0) (rest : List Byte) :
    decode (o.byte :: rest) = .ok (o.assemble 0#8 0#8, rest) := by
  simp [decode, ho]

theorem decode_of_one_operand {o : Opcode} (ho : o.format.operandCount = 1) (opa : Byte) (rest : List Byte) :
    decode (o.byte :: opa :: rest) = .ok (o.assemble opa 0#8, rest) := by
  simp [decode, ho]

theorem decode_of_two_operands {o : Opcode} (ho : o.format.operandCount = 2) (opa opb : Byte) (rest : List Byte) :
    decode (o.byte :: opa :: opb :: rest) = .ok (o.assemble opa opb, rest) := by
  simp [decode, ho]

/-- By the format of the instruction's row: the decoder takes as many operand bytes as the encoder wrote. -/
theorem decode_encode (i : Instr) (rest : List Byte) : decode (encode i ++ rest) = .ok (i, rest) := by
  cases i with
  | hlt | ret => exact decode_of_no_operands rfl rest
  | prn a | pop a | jmp a | jeq a | jne a | push a | call a => exact decode_of_one_operand rfl a rest
  | ldi a b | mul a b | add a b | cmp a b => exact decode_of_two_operands rfl a b rest

theorem length_encode (i : Instr) : (encode i).length = i.length := by
  cases i <;> rfl

/-- What decodes is the encoding of the result: the row the first byte selects, with as many operand bytes as its format
has. -/
theorem eq_encode_append_of_decode {bytes rest : List Byte} {i : Instr} (h : decode bytes = .ok (i, rest)) :
    bytes = encode i ++ rest := by
  cases bytes with
  | nil => simp [decode] at h
  | cons ir tail =>
    cases ho : Opcode.ofByte ir with
    | none => simp [decode, ho] at h
    | some o =>
      obtain rfl := Opcode.byte_of_ofByte ho
      simp only [decode, Opcode.ofByte_byte] at h
      split at h
      case h_4 => cases h
      all_goals
        next hcount =>
        cases h
        simp [encode_assemble, Opcode.length, hcount]

/-- The decoder on three fetched bytes is the whole-byte match, whatever it leaves over. -/
theorem decodeBytes_of_decode {ir opa opb : Byte} {i : Instr} {rest : List Byte}
    (h : decode [ir, opa, opb] = .ok (i, rest)) : decodeBytes ir opa opb = some i := by
  have hb := eq_encode_append_of_decode h
  cases i with
  | hlt | ret =>
    obtain ⟨rfl, -⟩ := List.cons.inj hb
    rfl
  | prn a | pop a | jmp a | jeq a | jne a | push a | call a =>
    obtain ⟨rfl, htail⟩ := List.cons.inj hb
    obtain ⟨rfl, -⟩ := List.cons.inj htail
    rfl
  | ldi a b | mul a b | add a b | cmp a b =>
    obtain ⟨rfl, htail⟩ := List.cons.inj hb
    obtain ⟨rfl, htail'⟩ := List.cons.inj htail
    obtain ⟨rfl, -⟩ := List.cons.inj htail'
    rfl

end Sys2Proof
namespace Sys2Proof.Proofs

open Sys2Proof.Machine

/-- Settles O3: `decode_encode` and `eq_encode_append_of_decode`. -/
theorem decodeEncodeRoundTrip : Obligations.DecodeEncodeRoundTrip :=
  ⟨decode_encode, fun _ _ _ h => eq_encode_append_of_decode h⟩

/-- Settles O2: the fixed words are evaluated. -/
theorem sampleWordsDecode : Obligations.SampleWordsDecode :=
  ⟨rfl, rfl, rfl, rfl, rfl, rfl, rfl⟩

end Sys2Proof.Proofs

namespace Sys2Proof.Machine

theorem step_of_decodeBytes {s : State} {i : Instr} (hs : s.Running) (hpc : s.pc.toNat ≤ 253)
    (hd : decodeBytes (s.mem.read s.pc.toNat) (s.mem.read (s.pc.toNat + 1)) (s.mem.read (s.pc.toNat + 2)) = some i) :
    step s = exec i s :=
  stepWith_of_fetch_ok hs (State.fetchSpeculative_of_decodeBytes hpc hd)

end Sys2Proof.Machine

namespace Sys2Proof.Proofs

open Sys2Proof.Machine

/-- Settles O5: three bytes that decode are what the fetch hands on; bytes that stand in memory as an instruction's
encoding decode to it (`decode_encode`). -/
theorem stepRunsDecodedInstruction : Obligations.StepRunsDecodedInstruction := by
  have hdecoded : ∀ (s : State) (i : Instr) (rest : List Byte), s.Running → s.pc.toNat ≤ 253 →
      decode [s.mem.read s.pc.toNat, s.mem.read (s.pc.toNat + 1), s.mem.read (s.pc.toNat + 2)] = .ok (i, rest) →
      step s = exec i s := fun s i rest hs hpc hd => step_of_decodeBytes hs hpc (decodeBytes_of_decode hd)
  refine ⟨hdecoded, fun s i hs hpc hmem => ?_⟩
  obtain ⟨rest, hrest⟩ : encode i <+:
      [s.mem.read s.pc.toNat, s.mem.read (s.pc.toNat + 1), s.mem.read (s.pc.toNat + 2)] := by
    have hlen : (encode i).length ≤ 3 := length_encode i ▸ i.opcode.length_le_three
    refine List.prefix_iff_getElem.2 ⟨hlen, fun k hk => ?_⟩
    rw [← hmem k hk]
    have hk3 : k < 3 := by omega
    interval_cases k <;> rfl
  exact hdecoded s i rest hs hpc (hrest ▸ decode_encode i rest)

end Sys2Proof.Proofs

namespace Sys2Proof.Machine

/-! ### What a completed instruction leaves -/

theorem State.raises_eq_none_iff {s : State} {i : Instr} :
    s.raises i = none ↔ firstBadOperand i = none ∧ s.returnFault i = none ∧ s.stackFault i = none := by
  simp [State.raises, Option.or_eq_none_iff]

/-- From a state without a fault record, an instruction that records none has completed. -/
theorem exec_completed {i : Instr} {s t : State} (h : exec i s = .next t) (ht : t.fault = none) :
    s.raises i = none ∧ t = s.effect i := by
  obtain ⟨c, -, rfl⟩ | hdone := exec_raises_cases h
  · simp at ht
  · exact hdone

/-- Where an instruction transfers control to, if it does: the value of a register, for CALL as it stands after the push,
or the byte RET pops (44_control_transfer.md). -/
def State.transferTarget (s : State) : Instr → Option Byte
  | .call a => some ((s.effect (.call a)).readReg (reg a))
  | .jmp a => some (s.readReg (reg a))
  | .jeq a => if s.flags.e then some (s.readReg (reg a)) else none
  | .jne a => if s.flags.e then none else some (s.readReg (reg a))
  | .ret => some (s.mem.read s.stackSlot)
  | .hlt | .ldi _ _ | .prn _ | .mul _ _ | .add _ _ | .cmp _ _ | .push _ | .pop _ => none

/-- A completed instruction goes to its target, or to the byte after its own last one (R96, R155). -/
theorem State.toNat_effect_pc {s : State} {i : Instr} (hfits : s.pc.toNat + i.length ≤ 256) :
    (s.effect i).pc.toNat = (s.transferTarget i).elim (s.pc.toNat + i.length) BitVec.toNat := by
  cases i with
  | call a | jmp a | ret => exact toNat_target _
  | jeq a =>
    rw [State.effect, State.transferTarget]
    cases s.flags.e with
    | true => exact toNat_target _
    | false => exact toNat_advance hfits
  | jne a =>
    rw [State.effect, State.transferTarget]
    cases s.flags.e with
    | true => exact toNat_advance hfits
    | false => exact toNat_target _
  | _ => exact toNat_advance hfits

theorem State.effect_pc_le {s : State} {i : Instr} (hfits : s.pc.toNat + i.length ≤ 256) :
    (s.effect i).pc.toNat ≤ 256 := by
  rw [State.toNat_effect_pc hfits]
  cases s.transferTarget i with
  | none => exact hfits
  | some b => exact b.isLt.le

theorem State.wf_effect_mem {s : State} (hm : s.mem.wf = true) (i : Instr) : (s.effect i).mem.wf = true := by
  obtain h | ⟨-, v, h⟩ := s.effect_mem i
  · rwa [h]
  · rw [h]
    exact Memory.wf_write hm (BitVec.isLt _) v

theorem State.atMostOne_effect_flags {s : State} (hone : s.flags.atMostOne = true) (i : Instr) :
    (s.effect i).flags.atMostOne = true := by
  obtain h | ⟨-, -, u, v, -, h⟩ := s.effect_flags i
  · rwa [h]
  · exact h ▸ Flags.compare_atMostOne u v

/-! ### The invariant (10_state.md R34, 60_exceptions.md R171) -/

theorem State.inv_of_fault_eq_none {s : State} (hm : s.mem.wf = true) (hone : s.flags.atMostOne = true)
    (hpc : s.pc.toNat ≤ 256) (hf : s.fault = none) : s.Inv := by
  simp [State.Inv, hm, hone, hpc, hf]

theorem State.inv_takeFault {s : State} {c : FaultCause} (hinv : s.Inv) (hs : s.Running) (hc : c.possible = true) :
    (s.takeFault c).Inv := by
  obtain ⟨hm, hone, hpc, -, -⟩ := hinv
  refine ⟨hm, hone, hpc, by simp [hs.1], ?_⟩
  rintro r ⟨⟩
  exact ⟨hc, rfl⟩

theorem State.inv_effect {s : State} {i : Instr} (hinv : s.Inv) (hs : s.Running)
    (hfits : s.pc.toNat + i.length ≤ 256) : (s.effect i).Inv := by
  obtain ⟨hm, hone, -, -, -⟩ := hinv
  exact State.inv_of_fault_eq_none (State.wf_effect_mem hm i) (State.atMostOne_effect_flags hone i)
    (State.effect_pc_le hfits) ((s.effect_fault i).trans hs.2)

theorem State.possible_of_fetch_error {p : FetchPolicy} {s : State} {c : FaultCause} (hpc : s.pc.toNat ≤ 256)
    (h : s.fetch p = .error c) : c.possible = true := by
  obtain ⟨rfl, hb, -⟩ | ⟨rfl, -⟩ := State.fetch_error_cases h
  · simp [FaultCause.possible, hb]
  · simp only [FaultCause.possible, decide_eq_true_eq]
    split <;> omega

theorem State.possible_of_raises {s : State} {i : Instr} {c : FaultCause} (hfits : s.pc.toNat + i.length ≤ 256)
    (h : s.raises i = some c) : c.possible = true := by
  obtain ⟨v, hv, rfl⟩ | hret | hstack := State.raises_cases h
  · simpa [FaultCause.possible] using le_toNat_of_firstBadOperand hv
  · rw [State.returnFault_of_fits hfits] at hret
    obtain ⟨-, rfl⟩ : _ ∧ FaultCause.outOfRangeMemory 256 = c := by simpa using hret
    rfl
  · obtain ⟨rfl, -⟩ | ⟨rfl, -⟩ := State.stackFault_cases hstack <;> rfl

theorem State.inv_reset : State.reset.Inv :=
  State.inv_of_fault_eq_none State.reset_mem_wf rfl (Nat.zero_le _) rfl

theorem stepWith_inv {p : FetchPolicy} {s t : State} (hinv : s.Inv) (h : stepWith p s = .next t) : t.Inv := by
  have ⟨_, _, hpc, _, _⟩ := hinv
  obtain ⟨hs, ⟨c, hf, rfl⟩ | ⟨i, hf, hx⟩⟩ := stepWith_cases h
  · exact State.inv_takeFault hinv hs (State.possible_of_fetch_error hpc hf)
  · obtain ⟨hfits, -, -⟩ := State.fetch_ok_spec hf
    obtain ⟨c, hc, rfl⟩ | ⟨-, rfl⟩ := exec_raises_cases hx
    · exact State.inv_takeFault hinv hs (State.possible_of_raises hfits hc)
    · exact State.inv_effect hinv hs hfits

/-! ### Runs -/

theorem run_succ_of_step {M : Host.Core} {s u : M.State} (h : M.step s = .next u) (k : Nat) :
    M.run (k + 1) s = M.run k u := by
  rw [Host.Core.run, h]

theorem run_succ_cases {M : Host.Core} {k : Nat} {s t : M.State} (h : M.run (k + 1) s = .next t) :
    ∃ u, M.step s = .next u ∧ M.run k u = .next t := by
  rw [Host.Core.run] at h
  split at h
  · exact ⟨_, ‹_›, h⟩
  · cases h
  · cases h

/-- What every step keeps, every run keeps. -/
theorem run_keeps {M : Host.Core} {P : M.State → Prop} (hstep : ∀ s t, P s → M.step s = .next t → P t) {k : Nat}
    {s t : M.State} (hs : P s) (h : M.run k s = .next t) : P t := by
  induction k generalizing s with
  | zero =>
    obtain rfl : s = t := Host.Outcome.next.inj h
    exact hs
  | succ k ih =>
    obtain ⟨u, hu, hrun⟩ := run_succ_cases h
    exact ih (hstep s u hs hu) hrun

/-- A loaded program changes nothing of the reset state but its memory, which stays canonical. -/
theorem State.inv_load {program : List Byte} {s : State} (h : State.load program = .ok s) : s.Inv := by
  have hbytes := State.loadBytes_of_load h
  have hm := State.wf_loadBytes State.reset_mem_wf hbytes
  rw [State.loadBytes_frame hbytes]
  exact State.inv_of_fault_eq_none hm rfl (Nat.zero_le _) rfl

end Sys2Proof.Machine

namespace Sys2Proof.Proofs

open Sys2Proof.Machine

/-- Settles O13: a fault taken is a possible one (`State.possible_of_fetch_error`, `State.possible_of_raises`), and a
completed instruction, whose bytes lie within memory, keeps each clause (`State.inv_effect`). -/
theorem stepKeepsInvariant : Obligations.StepKeepsInvariant :=
  fun _ _ _ hinv h => stepWith_inv hinv h

/-- Settles O14. -/
theorem resetMeetsInvariant : Obligations.ResetMeetsInvariant :=
  State.inv_reset

/-- Settles O15: the start state meets the invariant (`State.inv_load`) and every step keeps it. -/
theorem loadedRunsMeetInvariant : Obligations.LoadedRunsMeetInvariant :=
  fun _ _ _ _ hload hrun => run_keeps (M := core) (fun _ _ => stepWith_inv) (State.inv_load hload) hrun

end Sys2Proof.Proofs

namespace Sys2Proof.Machine

/-! ### The two fetch policies (40_fetch_decode_execute.md R100) -/

/-- The policy shows in a step through the fetch alone. -/
theorem stepWith_congr_fetch {p q : FetchPolicy} {s : State} (h : s.fetch p = s.fetch q) :
    stepWith p s = stepWith q s := by
  simp only [stepWith, h]

theorem State.fetchLazy_eq_fetchSpeculative {s : State} (hpc : s.pc.toNat ≤ 253) :
    s.fetchLazy = s.fetchSpeculative := by
  cases ho : Opcode.ofByte (s.mem.read s.pc.toNat) with
  | none => rw [State.fetchLazy_unrecognized (by omega) ho, State.fetchSpeculative_of_le hpc, decodeBytes_eq_none_iff.2 ho]
  | some o =>
    have hlen := o.length_le_three
    rw [State.fetchLazy_of_le ho (by omega)]
    exact (State.fetchSpeculative_of_decodeBytes hpc (decodeBytes_eq_some_iff.2 ⟨o, ho, rfl⟩)).symm

theorem stepWith_lazy_eq_speculative {s : State} (hpc : s.pc.toNat ≤ 253) :
    stepWith .lazy s = stepWith .speculative s :=
  stepWith_congr_fetch (State.fetchLazy_eq_fetchSpeculative hpc)

/-- From 254 on the hardware's fetch reaches past memory, so a step without a fault starts below. -/
theorem pc_le_of_speculative_step {s t : State} (h : stepWith .speculative s = .next t) (ht : t.fault = none) :
    s.pc.toNat ≤ 253 := by
  obtain ⟨hs, -⟩ := stepWith_cases h
  by_contra hpc
  have hfault := (commonFetchFaults s hs (by omega)).symm.trans h
  cases hfault
  simp [State.Faulted] at ht

/-- A run that ends without a fault record started without one: a faulted machine takes no step. -/
theorem fault_eq_none_of_run {p : FetchPolicy} {k : Nat} {s t : State}
    (h : Host.Core.run (coreWith p) k s = .next t) (ht : t.fault = none) : s.fault = none := by
  cases k with
  | zero =>
    obtain rfl : s = t := Host.Outcome.next.inj h
    exact ht
  | succ k =>
    obtain ⟨u, hu, -⟩ := run_succ_cases h
    obtain ⟨⟨-, hs⟩, -⟩ := stepWith_cases hu
    exact hs

theorem run_lazy_of_run_speculative {k : Nat} {s t : State} (h : Host.Core.run (coreWith .speculative) k s = .next t)
    (ht : t.fault = none) : Host.Core.run (coreWith .lazy) k s = .next t := by
  induction k generalizing s with
  | zero => exact h
  | succ k ih =>
    obtain ⟨u, hu, hrun⟩ := run_succ_cases h
    have hpc := pc_le_of_speculative_step hu (fault_eq_none_of_run hrun ht)
    have hlazy : stepWith .lazy s = .next u := (stepWith_lazy_eq_speculative hpc).trans hu
    exact (run_succ_of_step (M := coreWith .lazy) hlazy k).trans (ih hrun)

end Sys2Proof.Machine

namespace Sys2Proof.Proofs

open Sys2Proof.Machine

/-- Settles O22: below 254 both policies fetch the same instruction. -/
theorem fetchPoliciesAgreeBelow254 : Obligations.FetchPoliciesAgreeBelow254 :=
  fun _ hpc => stepWith_lazy_eq_speculative hpc

/-- Settles O23: below 254 the two steps are the same, from 254 on the speculative one faults (`commonFetchFaults`); at
254 and 255 the lazy fetch hands on HLT, and CALL at 254, whose return address is 256. -/
theorem speculativeFaultsWhereLazyFaults : Obligations.SpeculativeFaultsWhereLazyFaults := by
  refine ⟨fun s t h ht => ?_, fun s hs hlo hhi hb => ?_, fun s hs hpc hb ha => ?_⟩
  · obtain ⟨hs, -⟩ := stepWith_cases h
    rcases Nat.lt_or_ge s.pc.toNat 254 with hpc | hpc
    · exact ⟨t, (stepWith_lazy_eq_speculative (Nat.le_of_lt_succ hpc)).symm.trans h, ht⟩
    · exact ⟨_, commonFetchFaults s hs hpc, by simp [State.Faulted]⟩
  · have hf : s.fetch .lazy = .ok .hlt :=
      State.fetchLazy_of_le (o := .hlt) (Opcode.ofByte_eq_some_iff.2 hb.symm) (Nat.succ_le_succ hhi)
    exact ⟨_, (stepWith_of_fetch_ok hs hf).trans (exec_hlt s), rfl, hs.2, toNat_advance (pc := s.pc) (by omega)⟩
  · have hf : s.fetch .lazy = .ok (.call (s.mem.read 255)) := by
      have ho : Opcode.ofByte (s.mem.read s.pc.toNat) = some .call := Opcode.ofByte_eq_some_iff.2 (by rw [hpc, hb]; rfl)
      have hlen : s.pc.toNat + Opcode.call.length ≤ 256 := by rw [hpc]; decide
      rw [State.fetch, State.fetchLazy_of_le ho hlen, hpc]
      rfl
    rw [stepWith_of_fetch_ok hs hf, exec_call_of_pc_ge ha hpc.ge, hpc]

/-- Settles O24: by induction on the steps, each of which starts below 254 (`pc_le_of_speculative_step`). -/
theorem speculativeRunsAreLazyRuns : Obligations.SpeculativeRunsAreLazyRuns :=
  fun _ _ _ h ht => run_lazy_of_run_speculative h ht

end Sys2Proof.Proofs

namespace Sys2Proof.Machine

/-! ### What a step writes (20_memory.md, 10_state.md R21) -/

/-- A fault taken leaves memory, so a changed cell is the one a completed PUSH or CALL stored to. -/
theorem stepWith_mem_changed {p : FetchPolicy} {s t : State} {b : Nat} (hm : s.mem.wf = true)
    (h : stepWith p s = .next t) (hne : t.mem.read b ≠ s.mem.read b) :
    ∃ i, s.fetch p = .ok i ∧ ((∃ a, i = .push a) ∨ ∃ a, i = .call a) ∧ s.raises i = none ∧ t = s.effect i ∧
      b = (s.sp - 1#8).toNat := by
  obtain ⟨-, ⟨c, -, rfl⟩ | ⟨i, hf, hx⟩⟩ := stepWith_cases h
  · exact absurd rfl hne
  · obtain ⟨c, -, rfl⟩ | ⟨hr, rfl⟩ := exec_raises_cases hx
    · exact absurd rfl hne
    · obtain hsame | ⟨hi, v, hw⟩ := s.effect_mem i
      · exact absurd (by rw [hsame]) hne
      · refine ⟨i, hf, hi, hr, rfl, ?_⟩
        by_contra hb
        exact hne (by rw [hw, Memory.read_write_ne hm hb])

/-- A PUSH or CALL that completes has room below the stack pointer, and moves it down. -/
theorem State.sp_of_push_or_call {s : State} {i : Instr} (hi : (∃ a, i = .push a) ∨ ∃ a, i = .call a)
    (hr : s.raises i = none) : s.sp ≠ 0x00#8 ∧ (s.effect i).sp = s.sp - 1#8 := by
  obtain ⟨-, -, hstack⟩ := State.raises_eq_none_iff.1 hr
  obtain ⟨a, rfl⟩ | ⟨a, rfl⟩ := hi
  all_goals exact ⟨by simpa [State.stackFault] using hstack, by simp [State.effect]⟩

theorem State.lt_of_raises_eq_none {s : State} {i : Instr} {a : Byte} (hr : s.raises i = none)
    (ha : a ∈ i.regOperands) : a.toNat < 8 := by
  obtain ⟨hb, -, -⟩ := State.raises_eq_none_iff.1 hr
  simpa using List.find?_eq_none.1 hb a ha

theorem val_reg {a : Byte} (ha : a.toNat < 8) : (reg a).val = a.toNat := by
  rw [reg_of_lt ha]

/-- A RET, or a POP into another register, that completes has room above the stack pointer, and moves it up. -/
theorem State.sp_of_pop_or_ret {s : State} {i : Instr} (hi : (∃ a, i = .pop a ∧ a ≠ 7#8) ∨ i = .ret)
    (hr : s.raises i = none) : s.sp ≠ 0xFF#8 ∧ (s.effect i).sp = s.sp + 1#8 := by
  obtain ⟨-, -, hstack⟩ := State.raises_eq_none_iff.1 hr
  obtain ⟨a, rfl, ha7⟩ | rfl := hi
  · have ha : a.toNat < 8 := State.lt_of_raises_eq_none hr (List.mem_singleton_self a)
    have hsp : ∀ v, (s.writeReg (reg a) v).sp = s.sp := fun v => (State.sp_deliver ha v).trans (if_neg ha7)
    exact ⟨by simpa [State.stackFault, ha7] using hstack, by simp [State.effect, hsp]⟩
  · exact ⟨by simpa [State.stackFault] using hstack, by simp [State.effect]⟩

/-- The registers a completed instruction can change (R21, R22). -/
def Instr.writesReg : Instr → RegIndex → Prop
  | .ldi a _, q | .mul a _, q | .add a _, q => q = reg a
  | .pop a, q => q = reg a ∨ q = 7
  | .push _, q | .call _, q | .ret, q => q = 7
  | .hlt, _ | .prn _, _ | .cmp _ _, _ | .jmp _, _ | .jeq _, _ | .jne _, _ => False

theorem State.effect_readReg_of_not_writesReg {s : State} {i : Instr} {q : RegIndex} (hq : ¬ Instr.writesReg i q) :
    (s.effect i).readReg q = s.readReg q := by
  cases i with
  | ldi a _ | mul a _ | add a _ => exact State.readReg_writeReg_ne s hq _
  | pop a =>
    obtain ⟨hqa, hq7⟩ := not_or.1 hq
    rw [State.effect, State.advance_readReg, State.afterPop_readReg, if_neg hq7, State.readReg_writeReg_ne s hqa]
  | push a | call a =>
    have hq7 : q ≠ 7 := hq
    simp [State.effect, State.afterPush_readReg, hq7]
  | ret => exact (State.afterPop_readReg _ q).trans (if_neg hq)
  | jeq a | jne a => cases he : s.flags.e <;> simp [State.effect, he]
  | _ => rfl

/-! ### What a step reads of memory (20_memory.md section 1) -/

@[simp] theorem State.setMem_stackSlot (s : State) (m : Memory) : (s.setMem m).stackSlot = s.stackSlot := rfl

theorem State.stackFault_pop (s : State) (a : Byte) :
    s.stackFault (.pop a) = if s.popBase a = 0xFF#8 then some (.stackUnderflow 0xFF#8) else none := rfl

theorem State.fetchSpeculative_setMem {s : State} {m : Memory}
    (hm : ∀ k, k < 3 → m.read (s.pc.toNat + k) = s.mem.read (s.pc.toNat + k)) :
    (s.setMem m).fetchSpeculative = s.fetchSpeculative := by
  rcases Nat.lt_or_ge s.pc.toNat 254 with hpc | hpc
  · have h0 := hm 0 (by omega)
    have h1 := hm 1 (by omega)
    have h2 := hm 2 (by omega)
    rw [Nat.add_zero] at h0
    rw [State.fetchSpeculative_of_le (s := s) (Nat.le_of_lt_succ hpc),
      State.fetchSpeculative_of_le (s := s.setMem m) (Nat.le_of_lt_succ hpc)]
    simp only [State.setMem_mem, State.setMem_pc, h0, h1, h2]
  · rw [State.fetchSpeculative_of_ge hpc, State.fetchSpeculative_of_ge (s := s.setMem m) hpc]
    rfl

/-- POP and RET alone read a cell when they are executed, the one at the stack pointer. -/
def Instr.pops (i : Instr) : Prop := (∃ a, i = .pop a) ∨ i = .ret

/-- No check reads memory, but for the byte a POP delivers to the stack pointer. -/
theorem State.raises_setMem {s : State} {m : Memory} {i : Instr}
    (hm : Instr.pops i → m.read s.stackSlot = s.mem.read s.stackSlot) : (s.setMem m).raises i = s.raises i := by
  cases i with
  | pop a =>
    have hslot := hm (.inl ⟨a, rfl⟩)
    have hbase : (s.setMem m).popBase a = s.popBase a := by
      simp only [State.popBase, State.setMem_mem, State.setMem_sp, State.setMem_stackSlot, hslot]
    rw [State.raises, State.raises, State.stackFault_pop, State.stackFault_pop, hbase]
    rfl
  | _ => rfl

/-- No effect depends on memory, itself aside, but for the popped byte. -/
theorem State.effect_setMem {s : State} {m : Memory} {i : Instr}
    (hm : Instr.pops i → m.read s.stackSlot = s.mem.read s.stackSlot) :
    ((s.setMem m).effect i).setMem (s.effect i).mem = s.effect i := by
  cases i with
  | pop a | ret =>
    have hslot := hm (by simp [Instr.pops])
    simp only [State.effect, State.setMem_mem]
    rw [State.setMem_stackSlot, hslot]
    rfl
  | jeq a | jne a => cases he : s.flags.e <;> simp only [State.effect, State.setMem_flags, he] <;> rfl
  | _ => rfl

theorem exec_setMem {s t : State} {m : Memory} {i : Instr}
    (hm : Instr.pops i → m.read s.stackSlot = s.mem.read s.stackSlot) (h : exec i s = .next t) :
    ∃ u, exec i (s.setMem m) = .next u ∧ u.setMem t.mem = t := by
  obtain ⟨c, hr, rfl⟩ | ⟨hr, rfl⟩ := exec_raises_cases h
  · exact ⟨_, exec_of_raises_some (by rwa [State.raises_setMem hm]), rfl⟩
  · exact ⟨_, exec_of_raises_none (by rwa [State.raises_setMem hm]), State.effect_setMem hm⟩

theorem step_setMem {s t : State} {m : Memory} (h : step s = .next t)
    (hfetch : ∀ k, k < 3 → m.read (s.pc.toNat + k) = s.mem.read (s.pc.toNat + k))
    (hpop : ∀ i, s.fetch hardwarePolicy = .ok i → Instr.pops i → m.read s.stackSlot = s.mem.read s.stackSlot) :
    ∃ u, step (s.setMem m) = .next u ∧ u.setMem t.mem = t := by
  have hf' : (s.setMem m).fetch hardwarePolicy = s.fetch hardwarePolicy := State.fetchSpeculative_setMem hfetch
  obtain ⟨hs, ⟨c, hf, rfl⟩ | ⟨i, hf, hx⟩⟩ := stepWith_cases h
  · exact ⟨_, stepWith_of_fetch_error (s := s.setMem m) hs (hf'.trans hf), rfl⟩
  · obtain ⟨u, hu, ht⟩ := exec_setMem (hpop i hf) hx
    exact ⟨u, (stepWith_of_fetch_ok (s := s.setMem m) hs (hf'.trans hf)).trans hu, ht⟩

end Sys2Proof.Machine

namespace Sys2Proof.Proofs

open Sys2Proof.Machine

/-- Settles O19: the cell a completed PUSH or CALL stores to (`stepWith_mem_changed`) is the one below the stack pointer,
which is not 0x00 (`State.sp_of_push_or_call`). -/
theorem memoryWrittenOnlyByPushAndCall : Obligations.MemoryWrittenOnlyByPushAndCall := by
  intro p s t b hm h hne
  obtain ⟨i, hf, hi, hr, rfl, hb⟩ := stepWith_mem_changed hm h hne
  obtain ⟨hsp, hsp'⟩ := State.sp_of_push_or_call hi hr
  have hslot : b + 1 = s.stackSlot := by rw [hb, toNat_sub_one hsp, State.stackSlot]
  have hmax : s.stackSlot < 256 := s.sp.isLt
  refine ⟨?_, hslot, by rw [State.stackSlot, hsp', hb], by omega⟩
  obtain ⟨a, rfl⟩ | ⟨a, rfl⟩ := hi
  · exact .inl ⟨a, hf⟩
  · exact .inr ⟨a, hf⟩

/-- Settles O20: the fetch depends on the three fetched cells, an execution at most on the popped one. -/
theorem memoryReadFootprint : Obligations.MemoryReadFootprint :=
  fun _ _ _ h hfetch hpop => step_setMem h hfetch hpop

/-- Settles O21: a fault taken leaves the registers, a completed instruction all but those of `Instr.writesReg`; the
stack pointer's steps do not wrap where the stack bound is not met. -/
theorem registersChangeOnlyAsListed : Obligations.RegistersChangeOnlyAsListed := by
  intro i s t h
  obtain ⟨c, -, rfl⟩ | ⟨hr, rfl⟩ := exec_raises_cases h
  · exact ⟨fun q hq => absurd rfl hq, fun hsp => absurd rfl hsp⟩
  have hlt : ∀ a ∈ i.regOperands, a.toNat < 8 := fun a => State.lt_of_raises_eq_none hr
  refine ⟨fun q hq => ?_, fun _ => ?_⟩
  · have hw : Instr.writesReg i q := not_imp_comm.1 State.effect_readReg_of_not_writesReg hq
    cases i with
    | ldi a _ | mul a _ | add a _ => rw [hw, val_reg (hlt a List.mem_cons_self)]
    | pop a => exact hw.imp_left fun hqa => by rw [hqa, val_reg (hlt a List.mem_cons_self)]
    | _ => exact hw
  · cases i with
    | push a =>
      obtain ⟨hsp, hsp'⟩ := State.sp_of_push_or_call (.inl ⟨a, rfl⟩) hr
      rw [hsp', toNat_sub_one hsp]
    | call a =>
      obtain ⟨hsp, hsp'⟩ := State.sp_of_push_or_call (.inr ⟨a, rfl⟩) hr
      rw [hsp', toNat_sub_one hsp]
    | pop a =>
      intro ha7
      obtain ⟨hsp, hsp'⟩ := State.sp_of_pop_or_ret (.inl ⟨a, rfl, ha7⟩) hr
      rw [hsp', toNat_add_one hsp]
    | ret =>
      obtain ⟨hsp, hsp'⟩ := State.sp_of_pop_or_ret (.inr rfl) hr
      rw [hsp', toNat_add_one hsp]
    | _ => trivial

end Sys2Proof.Proofs

namespace Sys2Proof.Machine

/-! ### The pushed byte (20_memory.md section 4) -/

/-- A push leaves the stack pointer where a pop has room. -/
theorem sub_one_ne_max {b : Byte} (h : b ≠ 0x00#8) : b - 1#8 ≠ 0xFF#8 := by
  bv_omega

/-- The byte a completed PUSH or CALL stores at the new stack slot: the register as it stands after the decrement, or the
return address, unreduced. -/
theorem State.exists_pushed_byte {s : State} {i : Instr} {a : Byte} (hm : s.mem.wf = true)
    (hi : i = .push a ∨ i = .call a) (hr : s.raises i = none) :
    ∃ v : Byte, (i = .push a → v = (s.effect i).readReg (reg a)) ∧ (i = .call a → v.toNat = s.pc.toNat + 2) ∧
      ∀ b, (s.effect i).mem.read b = if b = (s.effect i).stackSlot then v else s.mem.read b := by
  obtain rfl | rfl := hi
  · exact ⟨_, fun _ => rfl, nofun, State.read_afterPush hm fun t => t.readReg (reg a)⟩
  · obtain ⟨-, hret, -⟩ := State.raises_eq_none_iff.1 hr
    have hpc : ¬ 254 ≤ s.pc.toNat := by simpa [State.returnFault] using hret
    refine ⟨_, nofun, fun _ => ?_, State.read_afterPush hm fun _ => BitVec.ofNat 8 (s.pc.toNat + 2)⟩
    rw [BitVec.toNat_ofNat]
    omega

end Sys2Proof.Machine

namespace Sys2Proof.Proofs

open Sys2Proof.Machine

/-- Settles O30: the fetch reads the stored byte at the stack slot and every other cell as before the store
(`State.exists_pushed_byte`). -/
theorem pushedByteIsWhatIsFetched : Obligations.PushedByteIsWhatIsFetched := by
  intro i a ha s t u k hi hm h ht hmem hu hk hslot hpc
  obtain ⟨hr, rfl⟩ := exec_completed h ht
  obtain ⟨v, hpush, hcall, hcells⟩ := State.exists_pushed_byte hm hi hr
  have hread : ∀ j, u.mem.read (u.pc.toNat + j) = if k = j then v else s.mem.read (u.pc.toNat + j) := fun j => by
    rw [hmem, hcells]
    exact if_congr (by omega) rfl rfl
  refine ⟨v, _, _, _, fun hi => (hpush hi).trans (by rw [reg_of_lt ha]), hcall, rfl, rfl, rfl, ?_⟩
  · rw [← hread 1, ← hread 2, ← Nat.add_zero u.pc.toNat, ← hread 0, Nat.add_zero]
    cases hd : decodeBytes (u.mem.read u.pc.toNat) (u.mem.read (u.pc.toNat + 1)) (u.mem.read (u.pc.toNat + 2)) with
    | some j => exact step_of_decodeBytes hu hpc hd
    | none => exact step_of_ofByte_eq_none hu hpc (decodeBytes_eq_none_iff.1 hd)

/-- Settles O47: PUSH and POP as O37 and O38 say; the value POP increments is the decremented stack pointer, for register
7 as the byte just stored. -/
theorem pushThenPopRestores : Obligations.PushThenPopRestores := by
  intro a ha s hsp hpc hm
  obtain ⟨hpush, -⟩ := pushStoresBelowStackPointer a s
  obtain ⟨t, ht, hreg, hslot, hread, hpct, hflags, hhalted, hfault, hout⟩ := hpush ha hsp (by omega)
  have hstored : t.mem.read t.stackSlot = t.readReg ⟨a.toNat, ha⟩ := by rw [hread hm, if_pos rfl]
  have hspt : t.sp = s.sp - 1#8 := hreg 7
  have hbase : (if a = 7#8 then t.mem.read t.stackSlot else t.sp) = s.sp - 1#8 := by
    split
    · next h7 =>
      subst h7
      exact hstored.trans hspt
    · exact hspt
  obtain ⟨hpop, -⟩ := popLoadsFromStackPointer a t
  obtain ⟨u, hu, hregu, -, hpcu, hflagsu, hhaltedu, hmemu, hfaultu, houtu⟩ :=
    hpop ha (hbase ▸ sub_one_ne_max hsp) (by omega)
  refine ⟨t, u, ht, hu, State.regs_ext fun q => ?_, by omega, hflagsu.trans hflags, hhaltedu.trans hhalted,
    hfaultu.trans hfault, houtu.trans hout, by rw [hmemu, hstored], fun b hb => by rw [hmemu, hread hm, if_neg hb]⟩
  rw [hregu, hbase, hstored]
  by_cases h7 : q = 7
  · subst h7
    rw [if_pos rfl, BitVec.sub_add_cancel]
    rfl
  · by_cases hqa : q = ⟨a.toNat, ha⟩
    · subst hqa
      rw [if_neg h7, if_pos rfl, hreg, if_neg h7]
    · rw [if_neg h7, if_neg hqa, hreg, if_neg h7]

/-- Settles O48: CALL stored `pc + 2` one below the stack pointer; RET as O40 says pops that byte and moves the stack
pointer back up. -/
theorem matchingRetReturns : Obligations.MatchingRetReturns := by
  intro a s t u hm hs h ht hsp hbyte
  obtain ⟨hr, rfl⟩ := exec_completed h ht
  obtain ⟨w, -, hw, hcells⟩ := State.exists_pushed_byte hm (.inr rfl) hr
  obtain ⟨hroom, hspt⟩ := State.sp_of_push_or_call (.inr ⟨a, rfl⟩) hr
  have hspu : u.sp = s.sp - 1#8 := hsp.trans hspt
  obtain ⟨hret, -⟩ := retPopsIntoPc u
  obtain ⟨v, hv, hpc, hreg, -, -, -, hmem, -⟩ := hret (hspu ▸ sub_one_ne_max hroom)
  refine ⟨v, hv, ?_, ?_, hmem, fun q hq => by rw [hreg, if_neg hq]⟩
  · rw [hpc, hbyte, hcells, if_pos rfl, hw rfl]
  · rw [State.sp, hreg, if_pos rfl, hspu, BitVec.sub_add_cancel]

end Sys2Proof.Proofs

namespace Sys2Proof.Machine

/-! ### Where a completed instruction goes (44_control_transfer.md) -/

theorem State.effect_pc_of_sequential {s : State} {i : Instr} (hfits : s.pc.toNat + i.length ≤ 256)
    (hn : s.transferTarget i = none) :
    (s.effect i).pc.toNat = s.pc.toNat + i.length ∧ (s.effect i).pc.toNat ≤ 256 := by
  rw [State.toNat_effect_pc hfits, hn]
  exact ⟨rfl, hfits⟩

theorem State.effect_pc_of_transfer {s : State} {i : Instr} {b : Byte} (hfits : s.pc.toNat + i.length ≤ 256)
    (hb : s.transferTarget i = some b) : (s.effect i).pc.toNat ≤ 255 ∧ (s.effect i).pc.toNat = b.toNat := by
  rw [State.toNat_effect_pc hfits, hb]
  exact ⟨Nat.le_of_lt_succ b.isLt, rfl⟩

/-- A completed transfer to a register operand's value: the operand names a register. -/
theorem State.effect_pc_of_register {s : State} {i : Instr} {a : Byte} (hfits : s.pc.toNat + i.length ≤ 256)
    (hr : s.raises i = none) (ha : a ∈ i.regOperands)
    (hb : s.transferTarget i = some ((s.effect i).readReg (reg a))) :
    (s.effect i).pc.toNat ≤ 255 ∧
      ∃ ha : a.toNat < 8, (s.effect i).pc.toNat = ((s.effect i).readReg ⟨a.toNat, ha⟩).toNat := by
  obtain ⟨hle, heq⟩ := State.effect_pc_of_transfer hfits hb
  have hlt := State.lt_of_raises_eq_none hr ha
  exact ⟨hle, hlt, by rw [heq, reg_of_lt hlt]⟩

/-! ### The packed flags (10_state.md R27) -/

theorem Flags.getLsbD_packed (f : Flags) (k : Nat) :
    f.packed.getLsbD k = if k = 0 then f.e else if k = 1 then f.g else if k = 2 then f.l else false := by
  rw [Flags.packed, BitVec.getLsbD_append, BitVec.getLsbD_append, BitVec.getLsbD_append]
  match k with
  | 0 | 1 | 2 => simp
  | k + 3 => simp

/-! ### Program text (30_encoding.md R79) -/

/-- The digit of one bit. -/
def binaryDigit (bit : Bool) : Char := if bit then '1' else '0'

theorem binaryValue_binaryDigit (acc : Nat) (bit : Bool) (cs : List Char) :
    binaryValue acc (binaryDigit bit :: cs) = binaryValue (2 * acc + bit.toNat) cs := by
  cases bit <;> rfl

/-- The digits of the bits below `n`, most significant first, spell the value of those bits behind what was read before. -/
theorem binaryValue_digits (b : Byte) (n acc : Nat) :
    binaryValue acc ((List.range n).reverse.map fun k => binaryDigit (b.getLsbD k)) =
      some (acc * 2 ^ n + b.toNat % 2 ^ n) := by
  induction n generalizing acc with
  | zero => simp [binaryValue, Nat.mod_one]
  | succ n ih =>
    rw [List.range_succ, List.reverse_append, List.reverse_singleton, List.singleton_append, List.map_cons,
      binaryValue_binaryDigit, ih, Nat.mod_pow_succ, BitVec.getLsbD, Nat.toNat_testBit]
    congr 1
    ring

theorem binaryLine_eq (b : Byte) : binaryLine b = (List.range 8).reverse.map fun k => binaryDigit (b.getLsbD k) := rfl

theorem binaryValue_binaryLine (b : Byte) : binaryValue 0 (binaryLine b) = some b.toNat := by
  rw [binaryLine_eq, binaryValue_digits, Nat.mod_eq_of_lt b.isLt, Nat.zero_mul, Nat.zero_add]

theorem isSeparator_binaryDigit (bit : Bool) : isSeparator (binaryDigit bit) = false := by
  cases bit <;> rfl

/-- A line of digits is one token, with nothing before or behind it. -/
theorem takeWhile_binaryLine (b : Byte) : (binaryLine b).takeWhile (fun c => !isSeparator c) = binaryLine b := by
  rw [binaryLine_eq, List.takeWhile_eq_self_iff, List.forall_mem_map]
  exact fun k _ => congrArg not (isSeparator_binaryDigit _)

theorem all_isSeparator_binaryLine (b : Byte) : (binaryLine b).all isSeparator = false :=
  congrArg (· && _) (isSeparator_binaryDigit (b.getLsbD 7))

theorem head?_binaryLine_ne_comment (b : Byte) : ((binaryLine b).head? == some '#') = false := by
  show (some (binaryDigit (b.getLsbD 7)) == some '#') = false
  cases b.getLsbD 7 <;> rfl

theorem parseLine_binaryLine (b : Byte) : parseLine (binaryLine b) = .ok (some b) := by
  have htoken : (binaryLine b).isEmpty = false := rfl
  have hlen : (binaryLine b).length = 8 := rfl
  simp only [parseLine, all_isSeparator_binaryLine, head?_binaryLine_ne_comment, takeWhile_binaryLine, htoken,
    binaryValue_binaryLine, hlen, BitVec.ofNat_toNat, BitVec.setWidth_eq, Bool.false_eq_true, if_false, if_true]

theorem parseLine_comment (text : List Char) : parseLine ('#' :: text) = .ok none := by
  simp [parseLine]

theorem parseLines_skip {line : List Char} (h : parseLine line = .ok none) (rest : List (List Char)) :
    parseLines (line :: rest) = parseLines rest := by
  rw [parseLines, h]
  cases hr : parseLines rest <;> rfl

theorem parseLines_byte {line : List Char} {b : Byte} (h : parseLine line = .ok (some b)) {rest : List (List Char)}
    {bs : List Byte} (hr : parseLines rest = .ok bs) : parseLines (line :: rest) = .ok (b :: bs) := by
  rw [parseLines, h, hr]
  rfl

theorem parseLines_map_binaryLine (program : List Byte) : parseLines (program.map binaryLine) = .ok program := by
  induction program with
  | nil => rfl
  | cons b bs ih => exact parseLines_byte (parseLine_binaryLine b) ih

theorem State.loadText_of_parseLines {lines : List (List Char)} {program : List Byte}
    (h : parseLines lines = .ok program) : State.loadText lines = State.load program := by
  rw [State.loadText, h]
  rfl

theorem State.loadText_skip {line : List Char} (h : parseLine line = .ok none) (rest : List (List Char)) :
    State.loadText (line :: rest) = State.loadText rest := by
  rw [State.loadText, State.loadText, parseLines_skip h]

end Sys2Proof.Machine

namespace Sys2Proof.Proofs

open Sys2Proof.Machine

/-- Settles O28: a byte's line parses to that byte (`parseLine_binaryLine`), a comment and an empty line to none. -/
theorem programTextSpellsItsBytes : Obligations.ProgramTextSpellsItsBytes :=
  ⟨fun program => State.loadText_of_parseLines (parseLines_map_binaryLine program),
    fun text => State.loadText_skip (parseLine_comment text), State.loadText_skip rfl⟩

/-- Settles O49: a completed instruction ends at its transfer target, read as the byte it is, or after its own last byte,
which lies within memory (`State.toNat_effect_pc`). -/
theorem controlTargetsAreBytes : Obligations.ControlTargetsAreBytes := by
  intro p s t h ht
  obtain ⟨-, ⟨c, -, rfl⟩ | ⟨i, hf, hx⟩⟩ := stepWith_cases h
  · simp at ht
  obtain ⟨hfits, -, -⟩ := State.fetch_ok_spec hf
  obtain ⟨hr, rfl⟩ := exec_completed hx ht
  refine ⟨i, hf, ?_⟩
  cases i with
  | call a | jmp a => exact State.effect_pc_of_register hfits hr List.mem_cons_self rfl
  | ret => exact State.effect_pc_of_transfer hfits rfl
  | jeq a | jne a =>
    refine ⟨fun he => State.effect_pc_of_register hfits hr List.mem_cons_self ?_,
      fun he => State.effect_pc_of_sequential hfits ?_⟩
    all_goals simp [State.transferTarget, State.effect, he]
  | _ => exact State.effect_pc_of_sequential hfits rfl

/-- Settles O44: by the operation code. -/
theorem aluAppliesOnlyItsOperations : Obligations.AluAppliesOnlyItsOperations := by
  refine fun op ra rb s => ⟨fun hop => s.aluApply_unsupported op (by simpa using hop) ra rb, fun hop => ?_⟩
  obtain rfl | rfl | rfl : op = .add ∨ op = .mul ∨ op = .cmp := by simpa using hop
  · exact ⟨_, rfl, rfl, rfl, rfl, rfl, rfl, fun _ => ⟨rfl, fun q hq => s.readReg_writeReg_ne hq _⟩, nofun⟩
  · exact ⟨_, rfl, rfl, rfl, rfl, rfl, rfl, fun _ => ⟨rfl, fun q hq => s.readReg_writeReg_ne hq _⟩, nofun⟩
  · exact ⟨_, rfl, rfl, rfl, rfl, rfl, rfl, fun h => absurd rfl h, fun _ => rfl⟩

/-- Settles O50: the open status is the model's own parameter, a successor. -/
theorem hostExitStatus : Obligations.HostExitStatus := by
  refine ⟨fun s hs => ?_, fun s => State.exitStatus_of_halted, Config.exitStatusOtherFault, Nat.succ_ne_zero _, ?_⟩
  · rw [State.exitStatus, State.runState_eq_running_iff.2 hs]
  · rintro s ⟨c, pc⟩ hs hf
    have hrun : s.runState = .faulted c := by simp [State.runState, hs, hf]
    rw [State.exitStatus, hrun]
    cases c <;> rfl

/-- Settles O51: the position of each flag and the zero bits are read off `Flags.getLsbD_packed`. -/
theorem packedFlagsLayout : Obligations.PackedFlagsLayout := by
  refine fun f => ⟨f.getLsbD_packed 2, f.getLsbD_packed 1, f.getLsbD_packed 0, fun k hk _ => ?_⟩
  rw [f.getLsbD_packed, if_neg (by omega), if_neg (by omega), if_neg (by omega)]

end Sys2Proof.Proofs
